-- ==== Sys2Proof/Word.lean ====
section
/-!
DEFINITION. Word.lean: the two word types of the block. A byte of an ADU is `u8`; an address, a quantity, a register
and a CRC are `u16`; nothing is signed (spec/00_scope.md section 6).
-/

namespace Sys2Proof

/-- One byte of an ADU (`u8`). -/
abbrev Byte := BitVec 8

/-- A 16-bit value: an address, a quantity, a register, a CRC (`u16`). -/
abbrev Word := BitVec 16

end Sys2Proof
end

