-- ==== Sys2Proof/Records.lean ====
section
/-!
DEFINITION. Records.lean: the typed records that enter the block (spec/00_scope.md R14, spec/10_state.md section 4) and
the shape of the Register Store. Plain data only; what they mean is said in Machine/.
-/

namespace Sys2Proof

/-- The eight supported function codes by the short names of spec/30_encoding.md R63. -/
inductive FunctionCode where
  | rc | rdi | rhr | rir | wsc | wsr | wmc | wmr
deriving DecidableEq, Repr

/-- The optional payload of a frame descriptor: `payload_present`, `payload_len`, `payload` (R79, D19). A payload that is
present and has length 0 is not absent. -/
structure Payload where
  present : Bool
  len : Word
  bytes : List Byte
deriving DecidableEq, Repr

/-- The payload fields of a descriptor that supplies none. -/
def Payload.absent : Payload := { present := false, len := 0, bytes := [] }

/-- The Frame Descriptor, the input of ENCODE (spec/30_encoding.md R79, spec/10_state.md R31). `fc` is any byte (C5). -/
structure Descriptor where
  unit : Byte
  fc : Byte
  address : Word
  quantity : Word
  payload : Payload
deriving DecidableEq, Repr

/-- The body of a request or of a write acknowledgement: the bytes between the function code and the CRC (R60), with the
two 16-bit fields at offsets 2 and 4 pulled out where the ADU is long enough to have them (`L >= 8`, R137, R168). -/
inductive Body where
  /-- Fewer than four body bytes (`L < 8`): no field is read. -/
  | short (bytes : List Byte)
  /-- The address, the quantity or value, and every body byte from offset 6 on. -/
  | fields (address value : Word) (rest : List Byte)
deriving DecidableEq, Repr

/-- The four banks of the Register Store (unit U2, spec/10_state.md R20): `HR`, `IR`, `CO`, `DI`. The length of each list is
the size `H`, `I`, `C`, `D` of that bank (R25), so a bank and its size have one home. The same record is `STORE_INIT`
(spec/00_scope.md R12). -/
structure Store where
  hr : List Word
  ir : List Word
  co : List Bool
  di : List Bool
deriving DecidableEq, Repr

/-- What the host can present: the four commands and the lifecycle event of spec/00_scope.md R14, selected by name; no
numeric command code exists (D2). -/
inductive Command where
  | crc16 (data : List Byte)
  | encode (frame : Descriptor)
  | process (req : List Byte)
  | decode (buf : List Byte)
  | reset (init : Store)
deriving DecidableEq, Repr

/-- Why a command is not one the host can present: its operand is not of the type the spec gives it. Raised by
`Sys2Proof.decode`; each is SAFE, since the model only stops where the spec gives the input no meaning. -/
inductive Reject where
  /-- An ADU longer than `ADU_MAX = 256` bytes: not presentable (spec/10_state.md R35, D22, U15). -/
  | aduTooLong
  /-- A multiple write that passes every test but whose payload has fewer bytes than the `payload_len` the encoder copies
  (spec/30_encoding.md R79, log entry 7). -/
  | payloadLength
  /-- A bank of more than 65536 elements (spec/00_scope.md R10, D4). -/
  | bankTooLarge
deriving DecidableEq, Repr

end Sys2Proof
end

