-- ==== Sys2Proof/Machine/Operands.lean ====
section
/-!
DEFINITION. Machine/Operands.lean: the operand forms of the wire: bytes of a 16-bit value, big-endian and little-endian
assembly, derived byte counts, packed bits and packed registers (spec/00_scope.md section 6, spec/20_memory.md R44, R45,
spec/30_encoding.md R74, R76).
-/

namespace Sys2Proof.Machine

/-- `hi8(v) = v[15:8]`. -/
def hi8 (v : Word) : Byte := v.extractLsb' 8 8

/-- `lo8(v) = v[7:0]`. -/
def lo8 (v : Word) : Byte := v.extractLsb' 0 8

/-- `be16(b0, b1)`: a `u16` from two bytes, the first the more significant (R44). -/
def be16 (b0 b1 : Byte) : Word := b0 ++ b1

/-- `le16(b0, b1)`: a `u16` from two bytes, the first the less significant; the CRC alone is read so (R44). -/
def le16 (b0 b1 : Byte) : Word := b1 ++ b0

/-- A 16-bit field on the wire: `hi8` then `lo8` (R44). -/
def wordBytes (v : Word) : List Byte := [hi8 v, lo8 v]

/-- `ceil8(q) = (q + 7) div 8` on naturals, the byte count of `q` packed bits (R76). -/
def ceil8 (q : Nat) : Nat := (q + 7) / 8

/-- The eight bits of a byte, low bit first (R45). -/
def byteBits (b : Byte) : List Bool :=
  [b.getLsbD 0, b.getLsbD 1, b.getLsbD 2, b.getLsbD 3, b.getLsbD 4, b.getLsbD 5, b.getLsbD 6, b.getLsbD 7]

/-- The bits of a data area in element order: bit `i` is bit `i mod 8` of byte `i div 8` (R45). -/
def unpackBits (data : List Byte) : List Bool := data.flatMap byteBits

/-- One byte from eight bits: cleared, then bit `k` set where `bit k` holds (R125). -/
def packByte (bit : Nat → Bool) : Byte :=
  (List.range 8).foldl (fun acc k => if bit k then acc ||| (1#8 <<< k) else acc) 0x00#8

/-- The `ceil8` bytes that carry the given bits, low bit first; the padding bits of the last byte are 0 (R45, R139). -/
def packBits (bits : List Bool) : List Byte :=
  (List.range (ceil8 bits.length)).map fun j => packByte fun k => bits.getD (8 * j + k) false

/-- Registers in a data area: each big-endian, in ascending address order (R70). -/
def packRegs (vs : List Word) : List Byte := vs.flatMap wordBytes

/-- The registers of a data area: `byteCount div 2` of them, an odd last byte is ignored (R166, D15). -/
def unpackRegs : List Byte → List Word
  | b0 :: b1 :: rest => be16 b0 b1 :: unpackRegs rest
  | _ => []

/-- A bit widened to a `u16`: 0 or 1 (R164, R174). -/
def widenBit (b : Bool) : Word := if b then 1#16 else 0#16

/-- The fields of a body: address at offset 2 and quantity or value at offset 4, big-endian (R74), where `L >= 8`. -/
def parseBody : List Byte → Body
  | b2 :: b3 :: b4 :: b5 :: rest => .fields (be16 b2 b3) (be16 b4 b5) rest
  | bytes => .short bytes

/-- The bytes of a body on the wire (R60, R74). -/
def bodyBytes : Body → List Byte
  | .short bytes => bytes
  | .fields address value rest => wordBytes address ++ wordBytes value ++ rest

end Sys2Proof.Machine
end

