-- ==== Sys2Proof/Machine/CrcEngine.lean ====
section
/-!
DEFINITION. Machine/CrcEngine.lean: unit U1, the CRC engine (spec/40_crc.md): the function `crc16`, and the two CRC bytes at
the end of an ADU (spec/30_encoding.md R62).
-/

namespace Sys2Proof.Machine

/-- One round (R92): if the low bit is set, shift right (logical) and XOR with 0xA001, else shift right. -/
def crcRound (a : Word) : Word :=
  if a.getLsbD 0 then (a >>> 1) ^^^ 0xA001#16 else a >>> 1

/-- `k` rounds. -/
def crcRounds : Nat → Word → Word
  | 0, a => a
  | k + 1, a => crcRounds k (crcRound a)

/-- One byte step (R92): XOR the byte into the low byte of the accumulator, then 8 rounds. -/
def crcStep (a : Word) (b : Byte) : Word := crcRounds 8 (a ^^^ b.setWidth 16)

/-- `crc16(bytes)` (R91): the accumulator starts at 0xFFFF and consumes the bytes in sequence order. -/
def crc16 (bytes : List Byte) : Word := bytes.foldl crcStep 0xFFFF#16

/-- A CRC on the wire: low byte first, then high byte (R94). -/
def crcBytes (c : Word) : List Byte := [lo8 c, hi8 c]

/-- An ADU from everything before its CRC (R62, R111, R134). -/
def sealAdu (bytes : List Byte) : List Byte := bytes ++ crcBytes (crc16 bytes)

end Sys2Proof.Machine
end

