-- ==== Sys2Proof/Config.lean ====
section
/-!
DEFINITION. Config.lean: the implementation parameters of spec/00_scope.md section 4. The sizes and `STORE_INIT` are OPEN
parameters with no default (D4, D5), so they are constants WITHOUT A BODY: nothing in Lean can learn a value of one, and a
claim about the reset store holds for every size and every content. `EXC_ADU_EN` and `EXC_CODE` have defaults (D17); the
values in force stand in State, so that claims hold for both settings of the option.
-/

namespace Sys2Proof

/-- `EXC_CODE`: the exception-code byte for each of the three status codes 2, 3 and 4 (R12, D17). -/
structure ExcCode where
  unsupportedFunction : Byte
  addressOutOfRange : Byte
  invalidValue : Byte
deriving DecidableEq, Repr

namespace Config

/-- `ADU_MAX`, "Maximum ADU size: 256 bytes" (R11). -/
abbrev aduMax : Nat := 256

/-- The largest size of a bank: a wire address is a `u16` (R10, D4). -/
abbrev bankMax : Nat := 65536

/-- `H`, the number of holding registers at reset: 0 to 65536 (R10). -/
opaque sizeH : Fin 65537
/-- `I`, the number of input registers at reset (R10). -/
opaque sizeI : Fin 65537
/-- `C`, the number of coils at reset (R10). -/
opaque sizeC : Fin 65537
/-- `D`, the number of discrete inputs at reset (R10). -/
opaque sizeD : Fin 65537

/-- `STORE_INIT.HR` element by element (R12, R34, U1). -/
opaque initHR : Nat → Word
/-- `STORE_INIT.IR` element by element (R12, R34, U1). -/
opaque initIR : Nat → Word
/-- `STORE_INIT.CO` element by element (R12, R34, U1). -/
opaque initCO : Nat → Bool
/-- `STORE_INIT.DI` element by element (R12, R34, U1). -/
opaque initDI : Nat → Bool

/-- `STORE_INIT`, the contents of the four banks after reset: arrays of the sizes `H`, `I`, `C`, `D` (R12, R34). -/
def storeInit : Store where
  hr := (List.range sizeH.val).map initHR
  ir := (List.range sizeI.val).map initIR
  co := (List.range sizeC.val).map initCO
  di := (List.range sizeD.val).map initDI

/-- `EXC_ADU_EN`'s default, 0: the document's behaviour (R12, D17). -/
def excAduEn : Bool := false

/-- `EXC_CODE`'s default: 2 to 0x01, 3 to 0x02, 4 to 0x03 (R12, D17; the spec takes them from general knowledge, G1). -/
def excCode : ExcCode :=
  { unsupportedFunction := 0x01#8, addressOutOfRange := 0x02#8, invalidValue := 0x03#8 }

end Config

end Sys2Proof
end

