-- ==== Sys2Proof/Machine/State.lean ====
section
/-!
DEFINITION. Machine/State.lean: the state of the block (spec/10_state.md), the outputs of a command, the reasons a step can
stop, and the state after reset (R34, R210, R211). Plain data.
-/

namespace Sys2Proof.Machine

/-- The status code, output of ENCODE and PROCESS (spec/30_encoding.md R82, spec/60_exceptions.md R180). -/
inductive Status where
  | ok | crcError | unsupportedFunction | addressOutOfRange | invalidValue
deriving DecidableEq, Repr

/-- The header fields DECODE reports when `hdr_valid = 1` (spec/43_decoder.md R162). -/
structure Header where
  unit : Byte
  fc : Byte
  crcRx : Word
deriving DecidableEq, Repr

/-- The informational fields of a write acknowledgement when `info_valid = 1` (R168 to R171). -/
structure AckInfo where
  addr : Word
  val : Word
deriving DecidableEq, Repr

/-- The outputs of DECODE (R160, R162, D16). A field that may be invalid is an option: `header` is `hdr_valid` with `unit`,
`fc`, `crc_rx`; `excCode` is `is_exception` with `exc_code`; `info` is `info_valid` with `info_addr`, `info_val`. `count` is
the length of `values` (R174). -/
structure Decoded where
  values : List Word
  header : Option Header
  excCode : Option Byte
  info : Option AckInfo
deriving DecidableEq, Repr

/-- `count`, the number of values (R160). -/
def Decoded.count (d : Decoded) : Nat := d.values.length

/-- The outputs of one command. -/
inductive Output where
  /-- No output: no command has run, or the last event was RESET. -/
  | none
  /-- CRC16's output (R90). -/
  | crc (value : Word)
  /-- The outputs of ENCODE and PROCESS: the status and the ADU; the length output is the ADU's length (R100, R120). -/
  | reply (status : Status) (adu : List Byte)
  /-- DECODE's outputs (R160). -/
  | decoded (d : Decoded)
deriving DecidableEq, Repr

/-- A step never faults: the block has no trap of any kind, and every error is a status output after which the block is ready
for the next command (spec/60_exceptions.md R188, R190). So the type has no constructor and nothing raises one (safe). -/
inductive Fault where
deriving DecidableEq, Repr

/-- Why a step gives an instruction no meaning. Every one is SAFE: the model only stops. -/
inductive Refusal where
  /-- An instruction the model has no meaning for yet. No arm of `exec` raises it (safe). -/
  | notModelled (mnemonic : String)
  /-- PROCESS, and the REQ rows it dispatches to, where no store exists: before RESET or after the store is destroyed
  (spec/70_reset_and_hazards.md R213: "a model refuses it"). Raised by `State.serve` and `execProcess` (safe). -/
  | noStore
  /-- The host's command is not of the spec's input types (R35, R79, R10); the reason is the decoder's. Raised by `step`
  (safe). -/
  | notPresentable (why : Reject)
deriving DecidableEq, Repr

/-- The state of the block. `store` is the Register Store, none before RESET or after destruction (R213); `excAduEn` and
`excCode` are the parameters `EXC_ADU_EN` and `EXC_CODE`, which no command reads back or writes (R12, R28). `pending` and
`out` are the model's own: the host's commands not yet run, oldest first (D3), and the outputs of the last command
(log entry 4). -/
structure State where
  store : Option Store
  excAduEn : Bool
  excCode : ExcCode
  pending : List Command
  out : Output
deriving DecidableEq, Repr

/-- The block right after reset: the store created with the sizes and contents the implementation fixes (R34, R210, R211), the
option parameters at their defaults (R12), no command presented yet (R212). -/
def State.reset : State where
  store := some Config.storeInit
  excAduEn := Config.excAduEn
  excCode := Config.excCode
  pending := []
  out := .none

end Sys2Proof.Machine
end

