-- ==== Sys2Proof/Machine/Flags.lean ====
section
/-!
DEFINITION. Machine/Flags.lean: the block has no flags and no condition codes (spec/10_state.md R27). What a command reports
is its status code; here is the number of each (spec/60_exceptions.md R180) and the exception-code byte `EXC_CODE` gives
it (spec/00_scope.md R12).
-/

namespace Sys2Proof.Machine

/-- "OK=0, CRC_ERROR=1, UNSUPPORTED_FUNCTION=2, ADDRESS_OUT_OF_RANGE=3, INVALID_VALUE=4" (R180). -/
def Status.code : Status → Nat
  | .ok => 0
  | .crcError => 1
  | .unsupportedFunction => 2
  | .addressOutOfRange => 3
  | .invalidValue => 4

/-- `EXC_CODE(status)`: a byte for the status codes 2, 3 and 4 only (R12). -/
def excCodeOf (m : ExcCode) : Status → Option Byte
  | .ok => none
  | .crcError => none
  | .unsupportedFunction => some m.unsupportedFunction
  | .addressOutOfRange => some m.addressOutOfRange
  | .invalidValue => some m.invalidValue

end Sys2Proof.Machine
end

