-- ==== Sys2Proof/Machine/Ops.lean ====
section
/-!
DEFINITION. Machine/Ops.lean: the named operations over the banks and the outputs: MemRead and MemWrite
(spec/20_memory.md R57), delivering an ADU, RAISING A STATUS (the block's one form of exception entry,
spec/60_exceptions.md R188, spec/42_processor.md R141), serving a request from the store, and the host's own acts between
commands. There is no return from an exception to model: nothing is saved and nothing is entered (R190).
-/

namespace Sys2Proof.Machine

/-- `MemRead(S, a, n)`: the `n` elements from index `a`, in ascending order (R57). Its precondition `a + n <= size(S)` is
checked by every caller (R42). -/
def memRead {α : Type} (bank : List α) (a n : Nat) : List α := (bank.drop a).take n

/-- `MemWrite(S, a, n, vs)`: element `a + i` receives the `i`-th value (R57). Its precondition is checked by every caller;
an index outside the bank would change nothing. -/
def memWrite {α : Type} (bank : List α) (a : Nat) : List α → List α
  | [] => bank
  | v :: vs => memWrite (bank.set a v) (a + 1) vs

/-- The outputs of the command that ends. -/
def State.emit (s : State) (o : Output) : State := { s with out := o }

/-- Status and ADU, the outputs of ENCODE and PROCESS. -/
def State.reply (s : State) (status : Status) (adu : List Byte) : State := s.emit (.reply status adu)

/-- The exception ADU of a request rejected with the given status, format RS-E (R72, R141): present only with
`EXC_ADU_EN = 1` and for a status `EXC_CODE` has a byte for. -/
def State.exceptionAdu (s : State) (unit fc : Byte) (status : Status) : List Byte :=
  if s.excAduEn then
    match excCodeOf s.excCode status with
    | some code => sealAdu [unit, fc ||| 0x80#8, code]
    | none => []
  else []

/-- `raise E` (spec/00_scope.md section 6, R188): the command ends with that status, the store is unchanged, and there are no
ADU bytes, except the exception ADU where PROCESS had extracted the unit id and function code (`header`) before the test
that failed (R141). -/
def State.raise (s : State) (status : Status) (header : Option (Byte × Byte)) : State :=
  match header with
  | some (unit, fc) => s.reply status (s.exceptionAdu unit fc status)
  | none => s.reply status []

/-- Serving a request that has passed the length and CRC tests: `f` is its function's rule on the store, giving the store
after it and the response bytes between the function code and the CRC, or the status it raises. On success the CRC is
appended and the ADU delivered (R134); on failure the status is raised (R135, R136). Without a store PROCESS has no
meaning (R213). -/
def State.serve (s : State) (unit fc : Byte) (f : Store → Except Status (Store × List Byte)) :
    Host.Outcome State Fault Refusal :=
  match s.store with
  | none => .refused .noStore
  | some st =>
    match f st with
    | .error e => .next (s.raise e (some (unit, fc)))
    | .ok (st', body) =>
      .next { s with store := some st', out := .reply .ok (sealAdu (unit :: fc :: body)) }

/-! The host's own acts, between commands and outside the step. -/

/-- The host presents one more command, to run after those already presented (D3). -/
def State.present (s : State) (c : Command) : State := { s with pending := s.pending ++ [c] }

/-- The host destroys the store: back to the state before RESET (R213, D21). -/
def State.destroyStore (s : State) : State := { s with store := none }

/-- The host assigns to the store it owns, between commands: the one way an input register or a discrete input changes after
RESET (R215, D20). R215 says only "a new `STORE_INIT`-like assignment". DESIGN CHOICE (log entry 12, safe): the assignment takes
any store in any state, so it asks neither that a store exists nor that the bank sizes stay as they are (R25, R211). -/
def State.assignStore (s : State) (st : Store) : State := { s with store := some st }

end Sys2Proof.Machine
end

