-- ==== Sys2Proof/Machine/Crc16.lean ====
section
/-!
DEFINITION. Machine/Crc16.lean: the CRC16 command (spec/40_crc.md R90).
-/

namespace Sys2Proof.Machine

/-- CRC16 (R90): the output is `crc16(bytes)`; no state is read or written, there is no failure mode. -/
def execCrc16 (data : List Byte) (s : State) : Host.Outcome State Fault Refusal :=
  .next (s.emit (.crc (crc16 data)))

end Sys2Proof.Machine
end

