-- ==== Sys2Proof/Syntax.lean ====
section
/-!
DEFINITION. Syntax.lean: the instructions, one constructor for each of the 33 rows of spec/opcode_table.json: the five host
commands (space CMD), and the rows a command dispatches to on the function code (spaces ENC, REQ, RSP). A row's
constructor carries what is left once the function code has selected it. `data`, `body` and `payload` are byte sequences
in wire order.
-/

namespace Sys2Proof

/-- One constructor per row of the opcode table. -/
inductive Instr where
  /-- CRC16 (R90): the CRC of any byte sequence. -/
  | crc16 (data : List Byte)
  /-- ENCODE (R100): the whole command on a frame descriptor. -/
  | encode (frame : Descriptor)
  /-- PROCESS (R120): the whole command on a request ADU. -/
  | process (req : List Byte)
  /-- DECODE (R160): the whole command on a response ADU. -/
  | decode (buf : List Byte)
  /-- RESET (R210): creation of the Register Store with the given sizes and contents. -/
  | reset (init : Store)
  /-- ENC.RC (R102). -/
  | encRC (unit : Byte) (address quantity : Word)
  /-- ENC.RDI (R103). -/
  | encRDI (unit : Byte) (address quantity : Word)
  /-- ENC.RHR (R104). -/
  | encRHR (unit : Byte) (address quantity : Word)
  /-- ENC.RIR (R105). -/
  | encRIR (unit : Byte) (address quantity : Word)
  /-- ENC.WSC (R106): `quantity` is the value, zero for off and anything else for on. -/
  | encWSC (unit : Byte) (address quantity : Word)
  /-- ENC.WSR (R107): `quantity` is the value to write. -/
  | encWSR (unit : Byte) (address quantity : Word)
  /-- ENC.WMC (R108). -/
  | encWMC (unit : Byte) (address quantity : Word) (payload : Payload)
  /-- ENC.WMR (R109). -/
  | encWMR (unit : Byte) (address quantity : Word) (payload : Payload)
  /-- ENC.OTHER (R110): `fc` is none of the eight. -/
  | encOther (unit fc : Byte) (address : Word)
  /-- REQ.RC (R125). -/
  | reqRC (unit : Byte) (body : Body)
  /-- REQ.RDI (R126). -/
  | reqRDI (unit : Byte) (body : Body)
  /-- REQ.RHR (R127). -/
  | reqRHR (unit : Byte) (body : Body)
  /-- REQ.RIR (R128). -/
  | reqRIR (unit : Byte) (body : Body)
  /-- REQ.WSC (R129). -/
  | reqWSC (unit : Byte) (body : Body)
  /-- REQ.WSR (R130). -/
  | reqWSR (unit : Byte) (body : Body)
  /-- REQ.WMC (R131). -/
  | reqWMC (unit : Byte) (body : Body)
  /-- REQ.WMR (R132). -/
  | reqWMR (unit : Byte) (body : Body)
  /-- REQ.OTHER (R133): `fc` is none of the eight; the body is read by no rule. -/
  | reqOther (unit fc : Byte) (body : List Byte)
  /-- RSP.EXC (R163): `fc` has bit 7 set. -/
  | rspEXC (unit fc : Byte) (body : List Byte) (crc : Word)
  /-- RSP.RC (R164). -/
  | rspRC (unit : Byte) (body : List Byte) (crc : Word)
  /-- RSP.RDI (R165). -/
  | rspRDI (unit : Byte) (body : List Byte) (crc : Word)
  /-- RSP.RHR (R166). -/
  | rspRHR (unit : Byte) (body : List Byte) (crc : Word)
  /-- RSP.RIR (R167). -/
  | rspRIR (unit : Byte) (body : List Byte) (crc : Word)
  /-- RSP.WSC (R168). -/
  | rspWSC (unit : Byte) (body : Body) (crc : Word)
  /-- RSP.WSR (R169). -/
  | rspWSR (unit : Byte) (body : Body) (crc : Word)
  /-- RSP.WMC (R170). -/
  | rspWMC (unit : Byte) (body : Body) (crc : Word)
  /-- RSP.WMR (R171). -/
  | rspWMR (unit : Byte) (body : Body) (crc : Word)
  /-- RSP.OTHER (R172): `fc` below 0x80 and none of the eight. -/
  | rspOther (unit fc : Byte) (body : List Byte) (crc : Word)
deriving DecidableEq, Repr

end Sys2Proof
end

