-- ==== Sys2Proof/WellFormed.lean ====
section
/-!
DEFINITION. WellFormed.lean: which instructions are within the types the spec gives their operands: the ADU capacity
(spec/10_state.md R35), the payload bytes a multiple write copies (spec/30_encoding.md R79), the size of a bank (spec/00_scope.md R10), and the
function code of a catch-all row (spec/opcode_table.json). Nothing else is checked: every value of a unit id, an address,
a quantity or a data byte is legal.
-/

namespace Sys2Proof

/-- One of "the supported set" of eight function codes (spec/30_encoding.md R63). -/
def isSupported (fc : Byte) : Bool :=
  fc == 0x01#8 || fc == 0x02#8 || fc == 0x03#8 || fc == 0x04#8 ||
  fc == 0x05#8 || fc == 0x06#8 || fc == 0x0F#8 || fc == 0x10#8

/-- A payload has the bytes that ENCODE copies from it with derived byte count `bc`. It copies `payload[0 .. bc-1]` only where
no test of R108, R109 and R113 fails; in every other case it reads none, so nothing is asked of them. Within the type of
R79 (`payload_len` bytes) this always holds; the notation of R80 can give another length (`plen=`), see log entry 7. -/
def Payload.wf (p : Payload) (bc : Nat) : Bool :=
  !p.present || p.len.toNat != bc || decide (Config.aduMax < 9 + bc) || decide (bc ≤ p.bytes.length)

/-- A descriptor's payload has the bytes its function code copies; only 0x0F and 0x10 copy any (R115). -/
def Descriptor.wf (f : Descriptor) : Bool :=
  if f.fc = 0x0F#8 then f.payload.wf (Machine.ceil8 f.quantity.toNat)
  else if f.fc = 0x10#8 then f.payload.wf (f.quantity.toNat * 2)
  else true

/-- The number of body bytes: `L - 4` (R60). -/
def Body.length : Body → Nat
  | .short bytes => bytes.length
  | .fields _ _ rest => 4 + rest.length

/-- A body is within an ADU of at most 256 bytes (R35), and `short` stands for fewer than four bytes only. -/
def Body.wf : Body → Bool
  | .short bytes => decide (bytes.length < 4)
  | .fields _ _ rest => decide (8 + rest.length ≤ Config.aduMax)

/-- A raw body is within an ADU of at most 256 bytes (R35). -/
def bodyFits (bytes : List Byte) : Bool := decide (4 + bytes.length ≤ Config.aduMax)

/-- The form of the Register Store, the block's memory: each bank has at most 65536 elements (R10, D4). A bank is a list
with exactly one entry per element, so equal banks are equal lists and the form needs no more. -/
def Memory.wf (st : Store) : Bool :=
  decide (st.hr.length ≤ Config.bankMax) && decide (st.ir.length ≤ Config.bankMax) &&
  decide (st.co.length ≤ Config.bankMax) && decide (st.di.length ≤ Config.bankMax)

/-- The operands are of the types the spec gives them. -/
def Instr.wf : Instr → Bool
  | .crc16 _ => true
  | .encode f => f.wf
  | .process req => decide (req.length ≤ Config.aduMax)
  | .decode buf => decide (buf.length ≤ Config.aduMax)
  | .reset init => Memory.wf init
  | .encRC _ _ _ => true
  | .encRDI _ _ _ => true
  | .encRHR _ _ _ => true
  | .encRIR _ _ _ => true
  | .encWSC _ _ _ => true
  | .encWSR _ _ _ => true
  | .encWMC _ _ q p => p.wf (Machine.ceil8 q.toNat)
  | .encWMR _ _ q p => p.wf (q.toNat * 2)
  | .encOther _ fc _ => !isSupported fc
  | .reqRC _ b => b.wf
  | .reqRDI _ b => b.wf
  | .reqRHR _ b => b.wf
  | .reqRIR _ b => b.wf
  | .reqWSC _ b => b.wf
  | .reqWSR _ b => b.wf
  | .reqWMC _ b => b.wf
  | .reqWMR _ b => b.wf
  | .reqOther _ fc b => !isSupported fc && bodyFits b
  | .rspEXC _ fc b _ => fc.getLsbD 7 && bodyFits b
  | .rspRC _ b _ => bodyFits b
  | .rspRDI _ b _ => bodyFits b
  | .rspRHR _ b _ => bodyFits b
  | .rspRIR _ b _ => bodyFits b
  | .rspWSC _ b _ => b.wf
  | .rspWSR _ b _ => b.wf
  | .rspWMC _ b _ => b.wf
  | .rspWMR _ b _ => b.wf
  | .rspOther _ fc b _ => !isSupported fc && !fc.getLsbD 7 && bodyFits b

end Sys2Proof
end

