-- ==== Sys2Proof/Decode.lean ====
section
/-!
DEFINITION. Decode.lean: from a host command to the instruction it is, and back. A command is selected by name (R14); inside
ENCODE, PROCESS and DECODE the function-code byte selects a row of the opcode table (R101, R124, R160). The decoder is total:
a command whose operand is not of its type is rejected by name; a request that never reaches the dispatch (too short, or a
wrong CRC) and a response that never does (too short) stay the command itself.
-/

namespace Sys2Proof

open Sys2Proof.Machine

/-- The function code a byte names, or none where it is none of the eight (spec/30_encoding.md R63, R78). -/
def functionCode? (fc : Byte) : Option FunctionCode :=
  if fc = 0x01#8 then some .rc
  else if fc = 0x02#8 then some .rdi
  else if fc = 0x03#8 then some .rhr
  else if fc = 0x04#8 then some .rir
  else if fc = 0x05#8 then some .wsc
  else if fc = 0x06#8 then some .wsr
  else if fc = 0x0F#8 then some .wmc
  else if fc = 0x10#8 then some .wmr
  else none

/-- The parts of an ADU: unit id, function code, body, CRC (spec/30_encoding.md R60). -/
structure AduParts where
  unit : Byte
  fc : Byte
  body : List Byte
  crc : Word
deriving DecidableEq, Repr

/-- The bytes before the last two, and the last two assembled low byte first (R60, R44). -/
def splitCrc : List Byte → Option (List Byte × Word)
  | [] => none
  | [_] => none
  | [lo, hi] => some ([], le16 lo hi)
  | b :: b' :: b'' :: rest =>
    match splitCrc (b' :: b'' :: rest) with
    | some (body, crc) => some (b :: body, crc)
    | none => none

/-- The parts of an ADU of at least `ADU_MIN = 4` bytes; none for a shorter one (R61, R121, R161). -/
def splitAdu : List Byte → Option AduParts
  | unit :: fc :: rest =>
    match splitCrc rest with
    | some (body, crc) => some { unit := unit, fc := fc, body := body, crc := crc }
    | none => none
  | _ => none

/-- The bytes an ADU's CRC covers: every byte before it (R62). -/
def AduParts.covered (p : AduParts) : List Byte := p.unit :: p.fc :: p.body

/-- The ENC row a descriptor selects (R101 to R110). Only the two multiple writes take the payload (R115). -/
def encRow (f : Descriptor) : Instr :=
  match functionCode? f.fc with
  | some .rc => .encRC f.unit f.address f.quantity
  | some .rdi => .encRDI f.unit f.address f.quantity
  | some .rhr => .encRHR f.unit f.address f.quantity
  | some .rir => .encRIR f.unit f.address f.quantity
  | some .wsc => .encWSC f.unit f.address f.quantity
  | some .wsr => .encWSR f.unit f.address f.quantity
  | some .wmc => .encWMC f.unit f.address f.quantity f.payload
  | some .wmr => .encWMR f.unit f.address f.quantity f.payload
  | none => .encOther f.unit f.fc f.address

/-- The REQ row a request that has passed the length and CRC tests selects (R124). -/
def reqRow (p : AduParts) : Instr :=
  match functionCode? p.fc with
  | some .rc => .reqRC p.unit (parseBody p.body)
  | some .rdi => .reqRDI p.unit (parseBody p.body)
  | some .rhr => .reqRHR p.unit (parseBody p.body)
  | some .rir => .reqRIR p.unit (parseBody p.body)
  | some .wsc => .reqWSC p.unit (parseBody p.body)
  | some .wsr => .reqWSR p.unit (parseBody p.body)
  | some .wmc => .reqWMC p.unit (parseBody p.body)
  | some .wmr => .reqWMR p.unit (parseBody p.body)
  | none => .reqOther p.unit p.fc p.body

/-- The RSP row a response selects: bit 7 of the function code is tested before the eight codes (R163). -/
def rspRow (p : AduParts) : Instr :=
  if p.fc.getLsbD 7 then .rspEXC p.unit p.fc p.body p.crc
  else
    match functionCode? p.fc with
    | some .rc => .rspRC p.unit p.body p.crc
    | some .rdi => .rspRDI p.unit p.body p.crc
    | some .rhr => .rspRHR p.unit p.body p.crc
    | some .rir => .rspRIR p.unit p.body p.crc
    | some .wsc => .rspWSC p.unit (parseBody p.body) p.crc
    | some .wsr => .rspWSR p.unit (parseBody p.body) p.crc
    | some .wmc => .rspWMC p.unit (parseBody p.body) p.crc
    | some .wmr => .rspWMR p.unit (parseBody p.body) p.crc
    | none => .rspOther p.unit p.fc p.body p.crc

/-- A request ADU: the row it reaches, or PROCESS itself where a test before the dispatch fails (R121, R122). -/
def resolveRequest (req : List Byte) : Instr :=
  match splitAdu req with
  | none => .process req
  | some p => if crc16 p.covered = p.crc then reqRow p else .process req

/-- A response ADU: the row it reaches, or DECODE itself where it is shorter than four bytes (R161). -/
def resolveResponse (buf : List Byte) : Instr :=
  match splitAdu buf with
  | none => .decode buf
  | some p => rspRow p

/-- The instruction a command is. -/
def resolve : Command → Instr
  | .crc16 data => .crc16 data
  | .encode f => encRow f
  | .process req => resolveRequest req
  | .decode buf => resolveResponse buf
  | .reset init => .reset init

/-- The reason a command is not presentable, if there is one (R35, R79, R10). -/
def rejection? : Command → Option Reject
  | .crc16 _ => none
  | .encode f => if f.wf then none else some .payloadLength
  | .process req => if req.length ≤ Config.aduMax then none else some .aduTooLong
  | .decode buf => if buf.length ≤ Config.aduMax then none else some .aduTooLong
  | .reset init => if Memory.wf init then none else some .bankTooLarge

/-- THE DECODER: the instruction of a command, or the rejection by name. -/
def decode (c : Command) : Except Reject Instr :=
  match rejection? c with
  | some r => .error r
  | none => .ok (resolve c)

/-- A request ADU with the given function code and body (formats RQ-A to RQ-D, R64 to R67). -/
def requestOf (unit fc : Byte) (body : List Byte) : Command := .process (sealAdu (unit :: fc :: body))

/-- A response ADU with the given function code, body and CRC field (formats RS-A to RS-E, R69 to R72). -/
def responseOf (unit fc : Byte) (body : List Byte) (crc : Word) : Command :=
  .decode (unit :: fc :: body ++ crcBytes crc)

/-- A frame descriptor that supplies no payload (R79). -/
def descriptorOf (unit fc : Byte) (address quantity : Word) : Command :=
  .encode { unit := unit, fc := fc, address := address, quantity := quantity, payload := Payload.absent }

/-- THE ENCODER: a command that presents the instruction, with the ADU written out from the formats of
spec/30_encoding.md. -/
def encode : Instr → Command
  | .crc16 data => .crc16 data
  | .encode f => .encode f
  | .process req => .process req
  | .decode buf => .decode buf
  | .reset init => .reset init
  | .encRC u a q => descriptorOf u 0x01#8 a q
  | .encRDI u a q => descriptorOf u 0x02#8 a q
  | .encRHR u a q => descriptorOf u 0x03#8 a q
  | .encRIR u a q => descriptorOf u 0x04#8 a q
  | .encWSC u a q => descriptorOf u 0x05#8 a q
  | .encWSR u a q => descriptorOf u 0x06#8 a q
  | .encWMC u a q p => .encode { unit := u, fc := 0x0F#8, address := a, quantity := q, payload := p }
  | .encWMR u a q p => .encode { unit := u, fc := 0x10#8, address := a, quantity := q, payload := p }
  | .encOther u fc a => descriptorOf u fc a 0x0000#16
  | .reqRC u b => requestOf u 0x01#8 (bodyBytes b)
  | .reqRDI u b => requestOf u 0x02#8 (bodyBytes b)
  | .reqRHR u b => requestOf u 0x03#8 (bodyBytes b)
  | .reqRIR u b => requestOf u 0x04#8 (bodyBytes b)
  | .reqWSC u b => requestOf u 0x05#8 (bodyBytes b)
  | .reqWSR u b => requestOf u 0x06#8 (bodyBytes b)
  | .reqWMC u b => requestOf u 0x0F#8 (bodyBytes b)
  | .reqWMR u b => requestOf u 0x10#8 (bodyBytes b)
  | .reqOther u fc b => requestOf u fc b
  | .rspEXC u fc b c => responseOf u fc b c
  | .rspRC u b c => responseOf u 0x01#8 b c
  | .rspRDI u b c => responseOf u 0x02#8 b c
  | .rspRHR u b c => responseOf u 0x03#8 b c
  | .rspRIR u b c => responseOf u 0x04#8 b c
  | .rspWSC u b c => responseOf u 0x05#8 (bodyBytes b) c
  | .rspWSR u b c => responseOf u 0x06#8 (bodyBytes b) c
  | .rspWMC u b c => responseOf u 0x0F#8 (bodyBytes b) c
  | .rspWMR u b c => responseOf u 0x10#8 (bodyBytes b) c
  | .rspOther u fc b c => responseOf u fc b c

/-- The command a word of spec/opcode_table.json stands for. The table gives a row its function-code BYTE and nothing else,
and the same byte stands in three spaces (ENC, REQ, RSP); the word is taken as byte 1 of an ADU presented to DECODE, whose
rows cover every byte value (DESIGN CHOICE, log entry 6), with the other bytes 0: eight bytes, enough for every field a
response format has at a fixed offset. -/
def tableCommand (nbits w : Nat) : Option Command :=
  if nbits = 8 ∧ w < 256 then
    some (.decode [0x00#8, BitVec.ofNat 8 w, 0x00#8, 0x00#8, 0x00#8, 0x00#8, 0x00#8, 0x00#8])
  else none

/-- The instruction the decoder reads from a word of the opcode table. -/
def decodeTableWord (nbits w : Nat) : Option Instr :=
  match tableCommand nbits w with
  | none => none
  | some c =>
    match decode c with
    | .ok i => some i
    | .error _ => none

end Sys2Proof
end

