-- ==== Sys2Proof/Machine/Decoder.lean ====
section
/-!
DEFINITION. Machine/Decoder.lean: unit U5, the DECODE command and its ten rows (spec/43_decoder.md). The decoder never touches
the Register Store, never checks a CRC, and has no status: a failure is `count = 0`.
-/

namespace Sys2Proof.Machine

/-- Outputs with no value and nothing valid (R161). -/
def Decoded.empty : Decoded := { values := [], header := none, excCode := none, info := none }

/-- Outputs of an ADU of at least four bytes: the header fields, extracted and not validated (R162), and the values. -/
def State.decodedValues (s : State) (unit fc : Byte) (crc : Word) (values : List Word) : State :=
  s.emit (.decoded { Decoded.empty with values := values, header := some { unit := unit, fc := fc, crcRx := crc } })

/-- The data bytes of a read response: `byte_count` of them from offset 3 where they lie inside the ADU and clear of the two
CRC bytes, none where `5 + bc > L` (R173). -/
def dataArea : List Byte → List Byte
  | [] => []
  | bc :: data => if bc.toNat ≤ data.length then data.take bc.toNat else []

/-- The values of a bit-read response: one per bit slot, `byteCount * 8` of them, not trimmed (R164, R176). -/
def bitValues (body : List Byte) : List Word := (unpackBits (dataArea body)).map widenBit

/-- The values of a register-read response: `byteCount div 2` of them (R166). -/
def regValues (body : List Byte) : List Word := unpackRegs (dataArea body)

/-- The informational fields of a write acknowledgement: valid when `L >= 8` (R168). -/
def ackInfo : Body → Option AckInfo
  | .short _ => none
  | .fields address value _ => some { addr := address, val := value }

/-- A write acknowledgement: no values, the informational fields where the ADU has them (R168 to R171). -/
def State.acknowledged (s : State) (unit fc : Byte) (crc : Word) (body : Body) : State :=
  s.emit (.decoded { Decoded.empty with
    header := some { unit := unit, fc := fc, crcRx := crc }, info := ackInfo body })

/-- RSP.EXC (R163): the byte at offset 2 is the exception code; "when L = 4 it is also the low CRC byte". -/
def execRspEXC (unit fc : Byte) (body : List Byte) (crc : Word) (s : State) : Host.Outcome State Fault Refusal :=
  .next (s.emit (.decoded { Decoded.empty with
    header := some { unit := unit, fc := fc, crcRx := crc }, excCode := some (body.headD (lo8 crc)) }))

/-- RSP.RC (R164): read-coils response. -/
def execRspRC (unit : Byte) (body : List Byte) (crc : Word) (s : State) : Host.Outcome State Fault Refusal :=
  .next (s.decodedValues unit 0x01#8 crc (bitValues body))

/-- RSP.RDI (R165): read-discrete-inputs response. -/
def execRspRDI (unit : Byte) (body : List Byte) (crc : Word) (s : State) : Host.Outcome State Fault Refusal :=
  .next (s.decodedValues unit 0x02#8 crc (bitValues body))

/-- RSP.RHR (R166): read-holding-registers response. -/
def execRspRHR (unit : Byte) (body : List Byte) (crc : Word) (s : State) : Host.Outcome State Fault Refusal :=
  .next (s.decodedValues unit 0x03#8 crc (regValues body))

/-- RSP.RIR (R167): read-input-registers response. -/
def execRspRIR (unit : Byte) (body : List Byte) (crc : Word) (s : State) : Host.Outcome State Fault Refusal :=
  .next (s.decodedValues unit 0x04#8 crc (regValues body))

/-- RSP.WSC (R168): write-single-coil acknowledgement. -/
def execRspWSC (unit : Byte) (body : Body) (crc : Word) (s : State) : Host.Outcome State Fault Refusal :=
  .next (s.acknowledged unit 0x05#8 crc body)

/-- RSP.WSR (R169): write-single-register acknowledgement. -/
def execRspWSR (unit : Byte) (body : Body) (crc : Word) (s : State) : Host.Outcome State Fault Refusal :=
  .next (s.acknowledged unit 0x06#8 crc body)

/-- RSP.WMC (R170): write-multiple-coils acknowledgement. -/
def execRspWMC (unit : Byte) (body : Body) (crc : Word) (s : State) : Host.Outcome State Fault Refusal :=
  .next (s.acknowledged unit 0x0F#8 crc body)

/-- RSP.WMR (R171): write-multiple-registers acknowledgement. -/
def execRspWMR (unit : Byte) (body : Body) (crc : Word) (s : State) : Host.Outcome State Fault Refusal :=
  .next (s.acknowledged unit 0x10#8 crc body)

/-- RSP.OTHER (R172): "Unknown function code: zero count"; the header fields are valid (R162). -/
def execRspOther (unit fc : Byte) (_body : List Byte) (crc : Word) (s : State) : Host.Outcome State Fault Refusal :=
  .next (s.decodedValues unit fc crc [])

/-- DECODE (R160): `L < 4` gives nothing (R161); bit 7 of the function code is tested before the dispatch (R163). -/
def execDecode (buf : List Byte) (s : State) : Host.Outcome State Fault Refusal :=
  match splitAdu buf with
  | none => .next (s.emit (.decoded Decoded.empty))
  | some p =>
    if p.fc.getLsbD 7 then execRspEXC p.unit p.fc p.body p.crc s
    else
      match functionCode? p.fc with
      | some .rc => execRspRC p.unit p.body p.crc s
      | some .rdi => execRspRDI p.unit p.body p.crc s
      | some .rhr => execRspRHR p.unit p.body p.crc s
      | some .rir => execRspRIR p.unit p.body p.crc s
      | some .wsc => execRspWSC p.unit (parseBody p.body) p.crc s
      | some .wsr => execRspWSR p.unit (parseBody p.body) p.crc s
      | some .wmc => execRspWMC p.unit (parseBody p.body) p.crc s
      | some .wmr => execRspWMR p.unit (parseBody p.body) p.crc s
      | none => execRspOther p.unit p.fc p.body p.crc s

end Sys2Proof.Machine
end

