-- ==== Sys2Proof/Machine/Encoder.lean ====
section
/-!
DEFINITION. Machine/Encoder.lean: unit U3, the ENCODE command and its nine rows (spec/41_encoder.md). The encoder never
touches the Register Store.
-/

namespace Sys2Proof.Machine

/-- A request ADU: unit id, function code, address big-endian, the body after the address, the CRC (R101, R111). -/
def requestAdu (unit fc : Byte) (address : Word) (tail : List Byte) : List Byte :=
  sealAdu (unit :: fc :: wordBytes address ++ tail)

/-- `status = OK` with the request ADU of the given tail (R111). -/
def State.encoded (s : State) (unit fc : Byte) (address : Word) (tail : List Byte) : State :=
  s.reply .ok (requestAdu unit fc address tail)

/-- A multiple write with derived byte count `bc` (R108, R109, R113): INVALID_VALUE with no ADU (R112) where the payload is
absent, where its length is not the byte count (compared without truncation), or where the ADU would exceed 256 bytes;
else quantity, byte count and the payload bytes unchanged. -/
def State.encodeMultiple (s : State) (unit fc : Byte) (address quantity : Word) (p : Payload) (bc : Nat) : State :=
  if p.present = false then s.raise .invalidValue none
  else if p.len.toNat ≠ bc then s.raise .invalidValue none
  else if Config.aduMax < 9 + bc then s.raise .invalidValue none
  else s.encoded unit fc address (wordBytes quantity ++ BitVec.ofNat 8 bc :: p.bytes.take bc)

/-- ENC.RC (R102), format RQ-A. -/
def execEncRC (unit : Byte) (address quantity : Word) (s : State) : Host.Outcome State Fault Refusal :=
  .next (s.encoded unit 0x01#8 address (wordBytes quantity))

/-- ENC.RDI (R103), format RQ-A. -/
def execEncRDI (unit : Byte) (address quantity : Word) (s : State) : Host.Outcome State Fault Refusal :=
  .next (s.encoded unit 0x02#8 address (wordBytes quantity))

/-- ENC.RHR (R104), format RQ-A. -/
def execEncRHR (unit : Byte) (address quantity : Word) (s : State) : Host.Outcome State Fault Refusal :=
  .next (s.encoded unit 0x03#8 address (wordBytes quantity))

/-- ENC.RIR (R105), format RQ-A. -/
def execEncRIR (unit : Byte) (address quantity : Word) (s : State) : Host.Outcome State Fault Refusal :=
  .next (s.encoded unit 0x04#8 address (wordBytes quantity))

/-- ENC.WSC (R106), format RQ-B: "append 0xFF00 if quantity is nonzero (ON) else 0x0000". -/
def execEncWSC (unit : Byte) (address quantity : Word) (s : State) : Host.Outcome State Fault Refusal :=
  .next (s.encoded unit 0x05#8 address (wordBytes (if quantity ≠ 0#16 then 0xFF00#16 else 0x0000#16)))

/-- ENC.WSR (R107), format RQ-B: the quantity field is the raw value. -/
def execEncWSR (unit : Byte) (address quantity : Word) (s : State) : Host.Outcome State Fault Refusal :=
  .next (s.encoded unit 0x06#8 address (wordBytes quantity))

/-- ENC.WMC (R108), format RQ-C: byte count `ceil8(quantity)`. -/
def execEncWMC (unit : Byte) (address quantity : Word) (payload : Payload) (s : State) :
    Host.Outcome State Fault Refusal :=
  .next (s.encodeMultiple unit 0x0F#8 address quantity payload (ceil8 quantity.toNat))

/-- ENC.WMR (R109), format RQ-D: byte count `quantity * 2` on naturals. -/
def execEncWMR (unit : Byte) (address quantity : Word) (payload : Payload) (s : State) :
    Host.Outcome State Fault Refusal :=
  .next (s.encodeMultiple unit 0x10#8 address quantity payload (quantity.toNat * 2))

/-- ENC.OTHER (R110), format RQ-X: nothing after the address, status OK. -/
def execEncOther (unit fc : Byte) (address : Word) (s : State) : Host.Outcome State Fault Refusal :=
  .next (s.encoded unit fc address [])

/-- ENCODE (R100): "Dispatches on descriptor.fc to an ENC.* row" (spec/opcode_table.json). -/
def execEncode (f : Descriptor) (s : State) : Host.Outcome State Fault Refusal :=
  match functionCode? f.fc with
  | some .rc => execEncRC f.unit f.address f.quantity s
  | some .rdi => execEncRDI f.unit f.address f.quantity s
  | some .rhr => execEncRHR f.unit f.address f.quantity s
  | some .rir => execEncRIR f.unit f.address f.quantity s
  | some .wsc => execEncWSC f.unit f.address f.quantity s
  | some .wsr => execEncWSR f.unit f.address f.quantity s
  | some .wmc => execEncWMC f.unit f.address f.quantity f.payload s
  | some .wmr => execEncWMR f.unit f.address f.quantity f.payload s
  | none => execEncOther f.unit f.fc f.address s

end Sys2Proof.Machine
end

