-- ==== Sys2Proof/Machine/Processor.lean ====
section
/-!
DEFINITION. Machine/Processor.lean: unit U4, the PROCESS command and its nine rows (spec/42_processor.md): validator,
register-store multiplexer, responder. Each rule is a function of the store giving the store after it and the response
body, or the status its first failing test raises (R144); no test stands after a write (R136).
-/

namespace Sys2Proof.Machine

/-- The bytes 2 to 5 of the request, which a write acknowledgement echoes (R71). -/
def echoBytes (address value : Word) : List Byte := wordBytes address ++ wordBytes value

/-- A read of a bit bank (R125): request length, range (R42, on naturals R43), response capacity (R138), then the byte count
and the packed bits. -/
def readBitBank (bank : List Bool) : Body → Except Status (List Byte)
  | .short _ => .error .invalidValue
  | .fields a q _ =>
    if bank.length < a.toNat + q.toNat then .error .addressOutOfRange
    else if Config.aduMax < 5 + ceil8 q.toNat then .error .invalidValue
    else .ok (BitVec.ofNat 8 (ceil8 q.toNat) :: packBits (memRead bank a.toNat q.toNat))

/-- A read of a register bank (R127): the same tests with byte count `quantity * 2`, then each register big-endian in
ascending address order. -/
def readRegBank (bank : List Word) : Body → Except Status (List Byte)
  | .short _ => .error .invalidValue
  | .fields a q _ =>
    if bank.length < a.toNat + q.toNat then .error .addressOutOfRange
    else if Config.aduMax < 5 + q.toNat * 2 then .error .invalidValue
    else .ok (BitVec.ofNat 8 (q.toNat * 2) :: packRegs (memRead bank a.toNat q.toNat))

/-- A single write of `value v` to a bank (R129, R130): request length, `address >= size` (R42), then the element; the bank
after it and the echoed bytes. No value is rejected. -/
def writeOne {α : Type} (bank : List α) (value : Word → α) : Body → Except Status (List α × List Byte)
  | .short _ => .error .invalidValue
  | .fields a v _ =>
    if bank.length < a.toNat + 1 then .error .addressOutOfRange
    else .ok (memWrite bank a.toNat [value v], echoBytes a v)

/-- A multiple write (R131, R132): fixed fields, range, transmitted byte count against the derived one (compared on naturals,
R76), data length, and only then the elements, unpacked from the `bc` data bytes. -/
def writeMany {α : Type} (bank : List α) (derived : Nat → Nat) (unpack : List Byte → List α) :
    Body → Except Status (List α × List Byte)
  | .short _ => .error .invalidValue
  | .fields _ _ [] => .error .invalidValue
  | .fields a q (bc :: data) =>
    if bank.length < a.toNat + q.toNat then .error .addressOutOfRange
    else if bc.toNat ≠ derived q.toNat then .error .invalidValue
    else if data.length < bc.toNat then .error .invalidValue
    else .ok (memWrite bank a.toNat ((unpack (data.take bc.toNat)).take q.toNat), echoBytes a q)

/-- The rule of REQ.RC on the store (R125). -/
def serveRC (b : Body) (st : Store) : Except Status (Store × List Byte) :=
  (readBitBank st.co b).map fun bytes => (st, bytes)

/-- The rule of REQ.RDI on the store (R126). -/
def serveRDI (b : Body) (st : Store) : Except Status (Store × List Byte) :=
  (readBitBank st.di b).map fun bytes => (st, bytes)

/-- The rule of REQ.RHR on the store (R127). -/
def serveRHR (b : Body) (st : Store) : Except Status (Store × List Byte) :=
  (readRegBank st.hr b).map fun bytes => (st, bytes)

/-- The rule of REQ.RIR on the store (R128). -/
def serveRIR (b : Body) (st : Store) : Except Status (Store × List Byte) :=
  (readRegBank st.ir b).map fun bytes => (st, bytes)

/-- The rule of REQ.WSC on the store (R129): exactly 0xFF00 turns the coil on, every other value off (R75). -/
def serveWSC (b : Body) (st : Store) : Except Status (Store × List Byte) :=
  (writeOne st.co (fun v => v == 0xFF00#16) b).map fun r => ({ st with co := r.1 }, r.2)

/-- The rule of REQ.WSR on the store (R130): the raw value. -/
def serveWSR (b : Body) (st : Store) : Except Status (Store × List Byte) :=
  (writeOne st.hr (fun v => v) b).map fun r => ({ st with hr := r.1 }, r.2)

/-- The rule of REQ.WMC on the store (R131): the first `quantity` bits of the data, low bit first; padding bits are
ignored. -/
def serveWMC (b : Body) (st : Store) : Except Status (Store × List Byte) :=
  (writeMany st.co ceil8 unpackBits b).map fun r => ({ st with co := r.1 }, r.2)

/-- The rule of REQ.WMR on the store (R132): each register big-endian. -/
def serveWMR (b : Body) (st : Store) : Except Status (Store × List Byte) :=
  (writeMany st.hr (fun q => q * 2) unpackRegs b).map fun r => ({ st with hr := r.1 }, r.2)

/-- REQ.RC (R125): read coils. -/
def execReqRC (unit : Byte) (body : Body) (s : State) : Host.Outcome State Fault Refusal :=
  s.serve unit 0x01#8 (serveRC body)

/-- REQ.RDI (R126): read discrete inputs. -/
def execReqRDI (unit : Byte) (body : Body) (s : State) : Host.Outcome State Fault Refusal :=
  s.serve unit 0x02#8 (serveRDI body)

/-- REQ.RHR (R127): read holding registers. -/
def execReqRHR (unit : Byte) (body : Body) (s : State) : Host.Outcome State Fault Refusal :=
  s.serve unit 0x03#8 (serveRHR body)

/-- REQ.RIR (R128): read input registers. -/
def execReqRIR (unit : Byte) (body : Body) (s : State) : Host.Outcome State Fault Refusal :=
  s.serve unit 0x04#8 (serveRIR body)

/-- REQ.WSC (R129): write single coil. -/
def execReqWSC (unit : Byte) (body : Body) (s : State) : Host.Outcome State Fault Refusal :=
  s.serve unit 0x05#8 (serveWSC body)

/-- REQ.WSR (R130): write single register. -/
def execReqWSR (unit : Byte) (body : Body) (s : State) : Host.Outcome State Fault Refusal :=
  s.serve unit 0x06#8 (serveWSR body)

/-- REQ.WMC (R131): write multiple coils. -/
def execReqWMC (unit : Byte) (body : Body) (s : State) : Host.Outcome State Fault Refusal :=
  s.serve unit 0x0F#8 (serveWMC body)

/-- REQ.WMR (R132): write multiple registers. -/
def execReqWMR (unit : Byte) (body : Body) (s : State) : Host.Outcome State Fault Refusal :=
  s.serve unit 0x10#8 (serveWMR body)

/-- REQ.OTHER (R133): UNSUPPORTED_FUNCTION; no byte of the body is read and no bank is touched. -/
def execReqOther (unit fc : Byte) (_body : List Byte) (s : State) : Host.Outcome State Fault Refusal :=
  s.serve unit fc fun _ => .error .unsupportedFunction

/-- PROCESS (R120): step 1, length (R121); step 2, CRC (R122), neither of which ever gives an exception ADU (R141); steps 3 and
4, extraction and dispatch on the function code (R123, R124). -/
def execProcess (req : List Byte) (s : State) : Host.Outcome State Fault Refusal :=
  match s.store with
  | none => .refused .noStore
  | some _ =>
    match splitAdu req with
    | none => .next (s.raise .invalidValue none)
    | some p =>
      if crc16 p.covered ≠ p.crc then .next (s.raise .crcError none)
      else
        match functionCode? p.fc with
        | some .rc => execReqRC p.unit (parseBody p.body) s
        | some .rdi => execReqRDI p.unit (parseBody p.body) s
        | some .rhr => execReqRHR p.unit (parseBody p.body) s
        | some .rir => execReqRIR p.unit (parseBody p.body) s
        | some .wsc => execReqWSC p.unit (parseBody p.body) s
        | some .wsr => execReqWSR p.unit (parseBody p.body) s
        | some .wmc => execReqWMC p.unit (parseBody p.body) s
        | some .wmr => execReqWMR p.unit (parseBody p.body) s
        | none => execReqOther p.unit p.fc p.body s

end Sys2Proof.Machine
end

