-- ==== Sys2Proof/Machine/Reset.lean ====
section
/-!
DEFINITION. Machine/Reset.lean: RESET, the lifecycle event that creates the Register Store (spec/70_reset_and_hazards.md R210).
-/

namespace Sys2Proof.Machine

/-- RESET (R210): the four banks hold `STORE_INIT` with the sizes it is given; "a second RESET creates a new store, with
possibly different sizes, and nothing of the old one survives" (R213). It has no outputs (R14). -/
def execReset (init : Store) (s : State) : Host.Outcome State Fault Refusal :=
  .next { s with store := some init, out := .none }

end Sys2Proof.Machine
end

