-- ==== Sys2Proof/Machine/Dispatch.lean ====
section
/-!
DEFINITION. Machine/Dispatch.lean: one arm per instruction, each a call of its meaning.
-/

namespace Sys2Proof.Machine

/-- The meaning of an instruction. -/
def exec (i : Instr) (s : State) : Host.Outcome State Fault Refusal :=
  match i with
  | .crc16 data => Sys2Proof.Machine.execCrc16 data s
  | .encode frame => Sys2Proof.Machine.execEncode frame s
  | .process req => Sys2Proof.Machine.execProcess req s
  | .decode buf => Sys2Proof.Machine.execDecode buf s
  | .reset init => Sys2Proof.Machine.execReset init s
  | .encRC unit address quantity => Sys2Proof.Machine.execEncRC unit address quantity s
  | .encRDI unit address quantity => Sys2Proof.Machine.execEncRDI unit address quantity s
  | .encRHR unit address quantity => Sys2Proof.Machine.execEncRHR unit address quantity s
  | .encRIR unit address quantity => Sys2Proof.Machine.execEncRIR unit address quantity s
  | .encWSC unit address quantity => Sys2Proof.Machine.execEncWSC unit address quantity s
  | .encWSR unit address quantity => Sys2Proof.Machine.execEncWSR unit address quantity s
  | .encWMC unit address quantity payload => Sys2Proof.Machine.execEncWMC unit address quantity payload s
  | .encWMR unit address quantity payload => Sys2Proof.Machine.execEncWMR unit address quantity payload s
  | .encOther unit fc address => Sys2Proof.Machine.execEncOther unit fc address s
  | .reqRC unit body => Sys2Proof.Machine.execReqRC unit body s
  | .reqRDI unit body => Sys2Proof.Machine.execReqRDI unit body s
  | .reqRHR unit body => Sys2Proof.Machine.execReqRHR unit body s
  | .reqRIR unit body => Sys2Proof.Machine.execReqRIR unit body s
  | .reqWSC unit body => Sys2Proof.Machine.execReqWSC unit body s
  | .reqWSR unit body => Sys2Proof.Machine.execReqWSR unit body s
  | .reqWMC unit body => Sys2Proof.Machine.execReqWMC unit body s
  | .reqWMR unit body => Sys2Proof.Machine.execReqWMR unit body s
  | .reqOther unit fc body => Sys2Proof.Machine.execReqOther unit fc body s
  | .rspEXC unit fc body crc => Sys2Proof.Machine.execRspEXC unit fc body crc s
  | .rspRC unit body crc => Sys2Proof.Machine.execRspRC unit body crc s
  | .rspRDI unit body crc => Sys2Proof.Machine.execRspRDI unit body crc s
  | .rspRHR unit body crc => Sys2Proof.Machine.execRspRHR unit body crc s
  | .rspRIR unit body crc => Sys2Proof.Machine.execRspRIR unit body crc s
  | .rspWSC unit body crc => Sys2Proof.Machine.execRspWSC unit body crc s
  | .rspWSR unit body crc => Sys2Proof.Machine.execRspWSR unit body crc s
  | .rspWMC unit body crc => Sys2Proof.Machine.execRspWMC unit body crc s
  | .rspWMR unit body crc => Sys2Proof.Machine.execRspWMR unit body crc s
  | .rspOther unit fc body crc => Sys2Proof.Machine.execRspOther unit fc body crc s

end Sys2Proof.Machine
end

