-- ==== Sys2Proof/Machine/Step.lean ====
section
/-!
DEFINITION. Machine/Step.lean: one step runs the oldest command the host has presented (spec/10_state.md R26, D3), as one
indivisible step (spec/00_scope.md R15). There is no program counter and no fetch (R26, spec/20_memory.md R54).
-/

namespace Sys2Proof.Machine

/-- One step: the oldest pending command is decoded and run. With none pending the block waits: it "does what the host's
current command says and then waits for the next command" (R26), so nothing changes. A command that is not of the spec's
input types is refused by name (R35, R79, R10). -/
def step (s : State) : Host.Outcome State Fault Refusal :=
  match s.pending with
  | [] => .next s
  | c :: rest =>
    match decode c with
    | .error why => .refused (.notPresentable why)
    | .ok i => exec i { s with pending := rest }

/-- The state with the opcode table's word presented as the very next command (log entry 6). The block selects no program and
fetches none: presenting the command is all a run takes. -/
def State.withFetchWord (s : State) (nbits w : Nat) : State :=
  match tableCommand nbits w with
  | none => s
  | some c => { s with pending := c :: s.pending }

end Sys2Proof.Machine
end

