-- ==== Sys2Proof/Safety.lean ====
section
/-!
DEFINITION. Safety.lean: what counts as a safe run, in the terms the claims use: the form every state keeps, when the block
can go on, what a request that is turned away leaves, and the order of PROCESS's tests written on the raw bytes of the
request as spec/42_processor.md R144 lists them.
-/

namespace Sys2Proof.Machine

/-- The outputs are within the capacities the spec states: an ADU of at most 256 bytes (spec/10_state.md R35), at most 2008
decoded values (spec/43_decoder.md R174). -/
def Output.fits : Output → Bool
  | .none => true
  | .crc _ => true
  | .reply _ adu => decide (adu.length ≤ 256)
  | .decoded d => decide (d.values.length ≤ 2008)

/-- The store, if there is one, has the form of `Memory.wf`: no bank above 65536 elements (spec/00_scope.md R10). -/
def State.storeWf (s : State) : Bool :=
  match s.store with
  | none => true
  | some st => Memory.wf st

/-- The form every step keeps: the store's form, and outputs within capacity. -/
def State.inv (s : State) : Bool := s.storeWf && s.out.fits

/-- The block can go on: a store exists (R214) and every pending command is of the spec's input types. -/
def State.ready (s : State) : Bool := s.store.isSome && s.pending.all fun c => (rejection? c).isNone

/-- What a request turned away with status `e` leaves (R135, R136, R141): everything as before but the outputs, which are the
status and, only with `EXC_ADU_EN = 1`, the five bytes of the RS-E ADU with the exception code `code`. -/
def State.turnedAway (s : State) (unit fc : Byte) (e : Status) (code : Byte) : State :=
  let front := [unit, fc ||| 0x80#8, code]
  let crc := crc16 front
  { s with out := .reply e (if s.excAduEn = true then front ++ [lo8 crc, hi8 crc] else []) }

/-- Byte `k` of an ADU as a number. -/
def byteAt (adu : List Byte) (k : Nat) : Nat := (adu.getD k 0x00#8).toNat

/-- The big-endian 16-bit field at offset `k` of an ADU as a number. -/
def fieldAt (adu : List Byte) (k : Nat) : Nat := byteAt adu k * 256 + byteAt adu (k + 1)

/-- The size of the bank a function code selects (spec/20_memory.md R41). -/
def bankSize (st : Store) (fc : Nat) : Nat :=
  if fc = 0x01 ∨ fc = 0x05 ∨ fc = 0x0F then st.co.length
  else if fc = 0x02 then st.di.length
  else if fc = 0x04 then st.ir.length
  else st.hr.length

/-- The tests of one request in the order of R144, first failure wins, on the raw bytes: (1) length, (2) CRC, (3) function code,
(4) fixed fields, (5) range, (6) byte count or capacity, (7) data length. -/
def processStatus (st : Store) (req : List Byte) : Status :=
  let L := req.length
  let fc := byteAt req 1
  let w := fieldAt req 4
  let bc := byteAt req 6
  if L < 4 then .invalidValue
  else if (crc16 (req.take (L - 2))).toNat ≠ byteAt req (L - 2) + byteAt req (L - 1) * 256 then .crcError
  else if ¬ (1 ≤ fc ∧ fc ≤ 6 ∨ fc = 0x0F ∨ fc = 0x10) then .unsupportedFunction
  else if L < 8 ∨ 0x0F ≤ fc ∧ L < 9 then .invalidValue
  else if bankSize st fc < fieldAt req 2 + (if fc = 5 ∨ fc = 6 then 1 else w) then .addressOutOfRange
  else if (fc = 1 ∨ fc = 2) ∧ 256 < 5 + (w + 7) / 8 then .invalidValue
  else if (fc = 3 ∨ fc = 4) ∧ 256 < 5 + w * 2 then .invalidValue
  else if fc = 0x0F ∧ bc ≠ (w + 7) / 8 then .invalidValue
  else if fc = 0x10 ∧ bc ≠ w * 2 then .invalidValue
  else if 0x0F ≤ fc ∧ L < 9 + bc then .invalidValue
  else .ok

end Sys2Proof.Machine
end

