-- ==== Sys2Proof/Certificates/Slice0/Obligations.lean ====
section
/-!
DEFINITION. Certificates/Slice0/Obligations.lean: the statements for the provers, from the numbered rules of spec/. A next state
written `{ s with … }` says at once what an instruction changes and that everything else is unchanged (its frame).
-/

open Sys2Proof Sys2Proof.Machine

/-! ## U1, the CRC engine (spec/40_crc.md) -/

/-- R91: the accumulator starts at 0xFFFF; each byte is XORed into its low byte, then eight rounds of "if the low bit is set,
shift right and XOR with polynomial 0xA001, else shift right". -/
def Obligations.Crc16RunsEightRoundsPerByte : Prop :=
  crc16 [] = 0xFFFF#16 ∧
  ∀ (s : List Byte) (b : Byte),
    crc16 (s ++ [b]) =
      (fun a : Word => if a.getLsbD 0 = true then (a >>> 1) ^^^ 0xA001#16 else a >>> 1)^[8]
        (crc16 s ^^^ b.setWidth 16)

/-- R95: the CRC of a sequence followed by its own CRC, low byte first, is 0; and no other two bytes give 0, so testing
`crc16(adu) == 0` and comparing the CRC field accept the same ADUs (a rule the spec marks as derived from R91 and R94). -/
def Obligations.Crc16IsZeroExactlyOnSealedSequences : Prop :=
  ∀ (s : List Byte) (x y : Byte),
    crc16 (s ++ [x, y]) = 0x0000#16 ↔ x = lo8 (crc16 s) ∧ y = hi8 (crc16 s)

/-- The vectors of spec/95_test_vectors.md section 2 that any reader can check against published values (R93, R97). -/
def Obligations.Crc16OfKnownMessages : Prop :=
  crc16 [] = 0xFFFF#16 ∧ crc16 [0x00#8] = 0x40BF#16 ∧ crc16 [0x00#8, 0x00#8] = 0xB001#16 ∧
  crc16 [0x31#8, 0x32#8, 0x33#8, 0x34#8, 0x35#8, 0x36#8, 0x37#8, 0x38#8, 0x39#8] = 0x4B37#16 ∧
  crc16 [0x01#8, 0x03#8, 0x00#8, 0x00#8, 0x00#8, 0x01#8] = 0x0A84#16

/-- R90: CRC16 answers the CRC of its bytes, of any number, in every state, and changes nothing else. -/
def Obligations.Crc16CommandAnswersTheCrc : Prop :=
  ∀ (data : List Byte) (s : State),
    exec (.crc16 data) s = .next { s with out := .crc (crc16 data) }

/-! ## U3, the request encoder (spec/41_encoder.md) -/

/-- R102, R103, R104, R105, R107: the descriptor forms whose body is the quantity field as it stands give status OK and the
8-byte ADU, CRC low byte first; every address and quantity is encoded, and a payload makes no difference. Both the row and the
whole command are stated. -/
def Obligations.EncodeQuantityForms : Prop :=
  ∀ (f : Descriptor) (s : State) (fc : Byte) (i : Instr),
    (fc, i) ∈ [(0x01#8, Instr.encRC f.unit f.address f.quantity), (0x02#8, Instr.encRDI f.unit f.address f.quantity),
      (0x03#8, Instr.encRHR f.unit f.address f.quantity), (0x04#8, Instr.encRIR f.unit f.address f.quantity),
      (0x06#8, Instr.encWSR f.unit f.address f.quantity)] →
    let front := [f.unit, fc, hi8 f.address, lo8 f.address, hi8 f.quantity, lo8 f.quantity]
    let t : State := { s with out := .reply .ok (front ++ [lo8 (crc16 front), hi8 (crc16 front)]) }
    exec i s = .next t ∧ (f.fc = fc → exec (.encode f) s = .next t)

/-- R106: ENC.WSC writes 0xFF00 for every nonzero quantity and 0x0000 for zero. -/
def Obligations.EncodeSingleCoilForm : Prop :=
  ∀ (f : Descriptor) (s : State),
    let v : Byte := if f.quantity = 0x0000#16 then 0x00#8 else 0xFF#8
    let front := [f.unit, 0x05#8, hi8 f.address, lo8 f.address, v, 0x00#8]
    let t : State := { s with out := .reply .ok (front ++ [lo8 (crc16 front), hi8 (crc16 front)]) }
    exec (.encWSC f.unit f.address f.quantity) s = .next t ∧ (f.fc = 0x05#8 → exec (.encode f) s = .next t)

/-- R108, R109, R112: a multiple write gives INVALID_VALUE and no byte where the payload is absent, where its length is not the
derived byte count (on naturals), or where the ADU would exceed 256 bytes; else status OK and quantity, byte count,
`payload[0 .. bc-1]` unchanged (all of the payload, where it has the `payload_len` bytes of its type, R79), and the CRC. The
capacity test is the spec's own decision (D10). -/
def Obligations.EncodeMultipleWriteForms : Prop :=
  ∀ (f : Descriptor) (s : State) (fc : Byte) (bc : Nat) (i : Instr),
    (fc, bc, i) ∈
      [(0x0F#8, (f.quantity.toNat + 7) / 8, Instr.encWMC f.unit f.address f.quantity f.payload),
       (0x10#8, f.quantity.toNat * 2, Instr.encWMR f.unit f.address f.quantity f.payload)] →
    let front := [f.unit, fc, hi8 f.address, lo8 f.address, hi8 f.quantity, lo8 f.quantity, BitVec.ofNat 8 bc]
      ++ f.payload.bytes.take bc
    let t : State :=
      if f.payload.present = false ∨ f.payload.len.toNat ≠ bc ∨ 256 < 9 + bc then
        { s with out := .reply .invalidValue [] }
      else { s with out := .reply .ok (front ++ [lo8 (crc16 front), hi8 (crc16 front)]) }
    exec i s = .next t ∧ (f.fc = fc → exec (.encode f) s = .next t)

/-- R110: a function code outside the eight gives status OK and the 6-byte ADU with an empty body after the address; quantity
and payload are ignored. -/
def Obligations.EncodeUnsupportedForm : Prop :=
  ∀ (f : Descriptor) (s : State),
    f.fc ∉ [0x01#8, 0x02#8, 0x03#8, 0x04#8, 0x05#8, 0x06#8, 0x0F#8, 0x10#8] →
    let front := [f.unit, f.fc, hi8 f.address, lo8 f.address]
    let t : State := { s with out := .reply .ok (front ++ [lo8 (crc16 front), hi8 (crc16 front)]) }
    exec (.encOther f.unit f.fc f.address) s = .next t ∧ exec (.encode f) s = .next t

/-- R100, R113: ENCODE answers for every descriptor, changing its outputs only. With status OK the ADU has 6 to 256 bytes and
ends with the CRC of everything before it; the only other status is INVALID_VALUE, with no byte, and only for 0x0F and
0x10. -/
def Obligations.EncodedAduFitsAndIsSealed : Prop :=
  ∀ (f : Descriptor) (s : State),
    ∃ (e : Status) (adu : List Byte),
      exec (.encode f) s = .next { s with out := .reply e adu } ∧
      ((e = .ok ∧ 6 ≤ adu.length ∧ adu.length ≤ 256 ∧
          ∃ front, adu = front ++ [lo8 (crc16 front), hi8 (crc16 front)]) ∨
       (e = .invalidValue ∧ adu = [] ∧ (f.fc = 0x0F#8 ∨ f.fc = 0x10#8)))

/-- R115: for every function code other than 0x0F and 0x10 the payload fields are ignored (the spec's decision D19). -/
def Obligations.EncodeIgnoresPayloadElsewhere : Prop :=
  ∀ (f : Descriptor) (p : Payload) (s : State),
    f.fc ≠ 0x0F#8 → f.fc ≠ 0x10#8 →
    exec (.encode { f with payload := p }) s = exec (.encode f) s

/-! ## U4, the request processor (spec/42_processor.md) -/

/-- R121, R122: a request of fewer than four bytes raises INVALID_VALUE, and one whose CRC field is not the CRC of the bytes
before it raises CRC_ERROR; in both cases no byte is answered, whatever `EXC_ADU_EN` is, and nothing else changes. -/
def Obligations.ProcessTestsLengthThenCrc : Prop :=
  ∀ (req : List Byte) (s : State) (st : Store), s.store = some st →
    (req.length < 4 → exec (.process req) s = .next { s with out := .reply .invalidValue [] }) ∧
    (∀ (covered : List Byte) (x y : Byte), req = covered ++ [x, y] → 2 ≤ covered.length →
      le16 x y ≠ crc16 covered → exec (.process req) s = .next { s with out := .reply .crcError [] })

/-- R125, R126: reads of the two bit banks. Short requests, ranges past the bank and responses over capacity are turned away in
that order; else the response carries the byte count and the elements, element `address + k` in bit `k mod 8` of data byte
`k div 8`, padding 0, and the store is unchanged. The length test, the capacity test and the padding are the spec's own decisions
(D8, D9, D11). -/
def Obligations.ReadBitFunctions : Prop :=
  ∀ (s : State) (st : Store) (unit : Byte) (body : Body) (fc : Byte) (i : Instr) (bank : List Bool),
    s.store = some st →
    (fc, i, bank) ∈ [(0x01#8, Instr.reqRC unit body, st.co), (0x02#8, Instr.reqRDI unit body, st.di)] →
    match body with
    | .short _ => exec i s = .next (s.turnedAway unit fc .invalidValue s.excCode.invalidValue)
    | .fields a q _ =>
      let bc := (q.toNat + 7) / 8
      if bank.length < a.toNat + q.toNat then
        exec i s = .next (s.turnedAway unit fc .addressOutOfRange s.excCode.addressOutOfRange)
      else if 256 < 5 + bc then
        exec i s = .next (s.turnedAway unit fc .invalidValue s.excCode.invalidValue)
      else
        ∃ data : List Byte,
          let front := unit :: fc :: BitVec.ofNat 8 bc :: data
          exec i s = .next { s with out := .reply .ok (front ++ [lo8 (crc16 front), hi8 (crc16 front)]) } ∧
          data.length = bc ∧
          (∀ k, k < q.toNat → (data.getD (k / 8) 0x00#8).getLsbD (k % 8) = bank.getD (a.toNat + k) false) ∧
          (∀ k, q.toNat ≤ k → k < 8 * bc → (data.getD (k / 8) 0x00#8).getLsbD (k % 8) = false)

/-- R127, R128: reads of the two register banks; register `address + k` is bytes `2k` and `2k + 1` of the data, high byte
first. The length test and the capacity test are the spec's own decisions (D8, D9). -/
def Obligations.ReadRegisterFunctions : Prop :=
  ∀ (s : State) (st : Store) (unit : Byte) (body : Body) (fc : Byte) (i : Instr) (bank : List Word),
    s.store = some st →
    (fc, i, bank) ∈ [(0x03#8, Instr.reqRHR unit body, st.hr), (0x04#8, Instr.reqRIR unit body, st.ir)] →
    match body with
    | .short _ => exec i s = .next (s.turnedAway unit fc .invalidValue s.excCode.invalidValue)
    | .fields a q _ =>
      let bc := q.toNat * 2
      if bank.length < a.toNat + q.toNat then
        exec i s = .next (s.turnedAway unit fc .addressOutOfRange s.excCode.addressOutOfRange)
      else if 256 < 5 + bc then
        exec i s = .next (s.turnedAway unit fc .invalidValue s.excCode.invalidValue)
      else
        ∃ data : List Byte,
          let front := unit :: fc :: BitVec.ofNat 8 bc :: data
          exec i s = .next { s with out := .reply .ok (front ++ [lo8 (crc16 front), hi8 (crc16 front)]) } ∧
          data.length = bc ∧
          ∀ k, k < q.toNat →
            data[2 * k]? = (bank[a.toNat + k]?).map hi8 ∧ data[2 * k + 1]? = (bank[a.toNat + k]?).map lo8

/-- R129: REQ.WSC. The coil becomes 1 for the value 0xFF00 and 0 for each of the other 65535 values, no other element of any
bank changes, and the response echoes the address and value bytes. That a short request raises INVALID_VALUE is the spec's own
decision (D8, R137, log entry 10). -/
def Obligations.WriteSingleCoilFunction : Prop :=
  ∀ (s : State) (st : Store) (unit : Byte) (body : Body), s.store = some st →
    match body with
    | .short _ => exec (.reqWSC unit body) s = .next (s.turnedAway unit 0x05#8 .invalidValue s.excCode.invalidValue)
    | .fields a v _ =>
      if st.co.length ≤ a.toNat then
        exec (.reqWSC unit body) s = .next (s.turnedAway unit 0x05#8 .addressOutOfRange s.excCode.addressOutOfRange)
      else
        ∃ co : List Bool,
          let front := [unit, 0x05#8, hi8 a, lo8 a, hi8 v, lo8 v]
          exec (.reqWSC unit body) s = .next { s with
            store := some { st with co := co },
            out := .reply .ok (front ++ [lo8 (crc16 front), hi8 (crc16 front)]) } ∧
          co.length = st.co.length ∧
          ∀ k, co[k]? = if k = a.toNat then some (decide (v = 0xFF00#16)) else st.co[k]?

/-- R130: REQ.WSR. The raw 16-bit value is stored, whatever it is. That a short request raises INVALID_VALUE is the spec's own
decision (D8, R137, log entry 10). -/
def Obligations.WriteSingleRegisterFunction : Prop :=
  ∀ (s : State) (st : Store) (unit : Byte) (body : Body), s.store = some st →
    match body with
    | .short _ => exec (.reqWSR unit body) s = .next (s.turnedAway unit 0x06#8 .invalidValue s.excCode.invalidValue)
    | .fields a v _ =>
      if st.hr.length ≤ a.toNat then
        exec (.reqWSR unit body) s = .next (s.turnedAway unit 0x06#8 .addressOutOfRange s.excCode.addressOutOfRange)
      else
        ∃ hr : List Word,
          let front := [unit, 0x06#8, hi8 a, lo8 a, hi8 v, lo8 v]
          exec (.reqWSR unit body) s = .next { s with
            store := some { st with hr := hr },
            out := .reply .ok (front ++ [lo8 (crc16 front), hi8 (crc16 front)]) } ∧
          hr.length = st.hr.length ∧
          ∀ k, hr[k]? = if k = a.toNat then some v else st.hr[k]?

/-- R131: REQ.WMC. The four tests in the document's order (a request out of range with a wrong byte count reports the address
error), then coils `address` to `address + quantity - 1` take the transmitted bits, low bit first, padding bits ignored, no
other element of any bank changes, and the response echoes address and quantity. The length tests are the spec's own decision
(D8). -/
def Obligations.WriteMultipleCoilsFunction : Prop :=
  ∀ (s : State) (st : Store) (unit : Byte) (body : Body), s.store = some st →
    let bad := s.turnedAway unit 0x0F#8 .invalidValue s.excCode.invalidValue
    match body with
    | .short _ => exec (.reqWMC unit body) s = .next bad
    | .fields _ _ [] => exec (.reqWMC unit body) s = .next bad
    | .fields a q (bc :: data) =>
      if st.co.length < a.toNat + q.toNat then
        exec (.reqWMC unit body) s = .next (s.turnedAway unit 0x0F#8 .addressOutOfRange s.excCode.addressOutOfRange)
      else if bc.toNat ≠ (q.toNat + 7) / 8 then exec (.reqWMC unit body) s = .next bad
      else if data.length < bc.toNat then exec (.reqWMC unit body) s = .next bad
      else
        ∃ co : List Bool,
          let front := [unit, 0x0F#8, hi8 a, lo8 a, hi8 q, lo8 q]
          exec (.reqWMC unit body) s = .next { s with
            store := some { st with co := co },
            out := .reply .ok (front ++ [lo8 (crc16 front), hi8 (crc16 front)]) } ∧
          co.length = st.co.length ∧
          ∀ k, co[k]? =
            if a.toNat ≤ k ∧ k < a.toNat + q.toNat then
              some ((data.getD ((k - a.toNat) / 8) 0x00#8).getLsbD ((k - a.toNat) % 8))
            else st.co[k]?

/-- R132: REQ.WMR. Registers `address` to `address + quantity - 1` take the transmitted values, each big-endian. The length tests are the spec's own decision (D8). -/
def Obligations.WriteMultipleRegistersFunction : Prop :=
  ∀ (s : State) (st : Store) (unit : Byte) (body : Body), s.store = some st →
    let bad := s.turnedAway unit 0x10#8 .invalidValue s.excCode.invalidValue
    match body with
    | .short _ => exec (.reqWMR unit body) s = .next bad
    | .fields _ _ [] => exec (.reqWMR unit body) s = .next bad
    | .fields a q (bc :: data) =>
      if st.hr.length < a.toNat + q.toNat then
        exec (.reqWMR unit body) s = .next (s.turnedAway unit 0x10#8 .addressOutOfRange s.excCode.addressOutOfRange)
      else if bc.toNat ≠ q.toNat * 2 then exec (.reqWMR unit body) s = .next bad
      else if data.length < bc.toNat then exec (.reqWMR unit body) s = .next bad
      else
        ∃ hr : List Word,
          let front := [unit, 0x10#8, hi8 a, lo8 a, hi8 q, lo8 q]
          exec (.reqWMR unit body) s = .next { s with
            store := some { st with hr := hr },
            out := .reply .ok (front ++ [lo8 (crc16 front), hi8 (crc16 front)]) } ∧
          hr.length = st.hr.length ∧
          ∀ k, hr[k]? =
            if a.toNat ≤ k ∧ k < a.toNat + q.toNat then
              some (be16 (data.getD (2 * (k - a.toNat)) 0x00#8) (data.getD (2 * (k - a.toNat) + 1) 0x00#8))
            else st.hr[k]?

/-- R133: any other function code raises UNSUPPORTED_FUNCTION, for the row and for every request ADU with a right CRC that
carries it, the 4-byte one included; no bank is read or written. -/
def Obligations.UnsupportedFunctionIsReported : Prop :=
  ∀ (s : State) (st : Store) (unit fc : Byte) (body : List Byte), s.store = some st →
    fc ∉ [0x01#8, 0x02#8, 0x03#8, 0x04#8, 0x05#8, 0x06#8, 0x0F#8, 0x10#8] →
    let covered := unit :: fc :: body
    let t := s.turnedAway unit fc .unsupportedFunction s.excCode.unsupportedFunction
    exec (.reqOther unit fc body) s = .next t ∧
    exec (.process (covered ++ [lo8 (crc16 covered), hi8 (crc16 covered)])) s = .next t

/-- R124, R101, R160: a whole command does exactly what the row does that its function code selects, in every state. -/
def Obligations.CommandsDoWhatTheirRowsDo : Prop :=
  ∀ (s : State) (f : Descriptor) (req buf : List Byte),
    exec (.encode f) s = exec (resolve (.encode f)) s ∧
    exec (.process req) s = exec (resolve (.process req)) s ∧
    exec (.decode buf) s = exec (resolve (.decode buf)) s

/-- R144: for every request and every store PROCESS answers a next state, and its status is the first failing test's, the tests
made in the order of R144 on the raw bytes of the request. R144 itself says which of its tests are the spec's own (D8, D9). -/
def Obligations.ProcessReportsTheFirstFailedTest : Prop :=
  ∀ (req : List Byte) (s : State) (st : Store), s.store = some st →
    ∃ (t : State) (adu : List Byte),
      exec (.process req) s = .next t ∧ t.out = .reply (processStatus st req) adu

/-- R136, R189: a request that is not answered OK changes nothing but the outputs. -/
def Obligations.RejectedRequestChangesNothing : Prop :=
  ∀ (req : List Byte) (s t : State) (e : Status) (adu : List Byte),
    exec (.process req) s = .next t → t.out = .reply e adu → e ≠ .ok →
    t = { s with out := .reply e adu }

/-- R135: with `EXC_ADU_EN = 0` a request that is not answered OK gets no response bytes, and the store is as before. -/
def Obligations.NoResponseBytesOnFailureByDefault : Prop :=
  ∀ (req : List Byte) (s t : State) (e : Status) (adu : List Byte),
    s.excAduEn = false → exec (.process req) s = .next t → t.out = .reply e adu → e ≠ .ok →
    adu = [] ∧ t.store = s.store

/-- R141: with `EXC_ADU_EN = 1` the rejected request gets the 5-byte RS-E ADU with the exception code of its status, except for a
request shorter than four bytes and for CRC_ERROR, which get none; the store is as before. The option is the spec's own decision
(D17). -/
def Obligations.ExceptionAduWhenEnabled : Prop :=
  ∀ (req : List Byte) (s t : State) (e : Status) (adu : List Byte),
    s.excAduEn = true → exec (.process req) s = .next t → t.out = .reply e adu → e ≠ .ok →
    t.store = s.store ∧
    if req.length < 4 ∨ e = .crcError then adu = []
    else
      ∃ code : Byte,
        (e, code) ∈ [(Status.unsupportedFunction, s.excCode.unsupportedFunction),
          (Status.addressOutOfRange, s.excCode.addressOutOfRange), (Status.invalidValue, s.excCode.invalidValue)] ∧
        let front := [req.getD 0 0x00#8, req.getD 1 0x00#8 ||| 0x80#8, code]
        adu = front ++ [lo8 (crc16 front), hi8 (crc16 front)]

/-- R120, R134, R73: a request answered OK gets a response of 5 to 256 bytes that opens with its own unit id and function code and
ends with the CRC of everything before it, low byte first. -/
def Obligations.ResponseIsSealedAndFits : Prop :=
  ∀ (req : List Byte) (s t : State) (adu : List Byte),
    exec (.process req) s = .next t → t.out = .reply .ok adu →
    5 ≤ adu.length ∧ adu.length ≤ 256 ∧
    adu[0]? = req[0]? ∧ adu[1]? = req[1]? ∧
    ∃ front, adu = front ++ [lo8 (crc16 front), hi8 (crc16 front)]

/-- R50, R33: "Reads never mutate": a request whose function code is not a write function leaves the store as it was. -/
def Obligations.OnlyWriteFunctionsMutate : Prop :=
  ∀ (req : List Byte) (s t : State),
    (∀ fc, req[1]? = some fc → fc ∉ [0x05#8, 0x06#8, 0x0F#8, 0x10#8]) →
    exec (.process req) s = .next t → t.store = s.store

/-- R71: an 8-byte single-write request that is answered OK is answered byte for byte with itself. -/
def Obligations.SingleWriteEchoesTheRequest : Prop :=
  ∀ (req : List Byte) (s t : State) (adu : List Byte),
    req.length = 8 → (req[1]? = some 0x05#8 ∨ req[1]? = some 0x06#8) →
    exec (.process req) s = .next t → t.out = .reply .ok adu → adu = req

/-- R140: bytes between the last byte a function uses and the CRC make no difference (the spec's decision D18). -/
def Obligations.SurplusBytesAreIgnored : Prop :=
  ∀ (s : State) (unit bc : Byte) (a v : Word) (data extra rest : List Byte), data.length = bc.toNat →
    exec (.reqRC unit (.fields a v rest)) s = exec (.reqRC unit (.fields a v [])) s ∧
    exec (.reqRDI unit (.fields a v rest)) s = exec (.reqRDI unit (.fields a v [])) s ∧
    exec (.reqRHR unit (.fields a v rest)) s = exec (.reqRHR unit (.fields a v [])) s ∧
    exec (.reqRIR unit (.fields a v rest)) s = exec (.reqRIR unit (.fields a v [])) s ∧
    exec (.reqWSC unit (.fields a v rest)) s = exec (.reqWSC unit (.fields a v [])) s ∧
    exec (.reqWSR unit (.fields a v rest)) s = exec (.reqWSR unit (.fields a v [])) s ∧
    exec (.reqWMC unit (.fields a v (bc :: data ++ extra))) s = exec (.reqWMC unit (.fields a v (bc :: data))) s ∧
    exec (.reqWMR unit (.fields a v (bc :: data ++ extra))) s = exec (.reqWMR unit (.fields a v (bc :: data))) s

/-- R43, R58: the sum of the range check does not wrap: two elements from 0xFFFF are out of range of every bank there can be, and
with quantity 0 the check passes exactly when `address <= size`. Both rules are marked by the spec as derived and decided (D6,
D7). -/
def Obligations.RangeCheckDoesNotWrap : Prop :=
  ∀ (s : State) (st : Store) (unit : Byte) (a : Word) (rest : List Byte), s.store = some st → Memory.wf st = true →
    exec (.reqRHR unit (.fields 0xFFFF#16 0x0002#16 rest)) s
      = .next (s.turnedAway unit 0x03#8 .addressOutOfRange s.excCode.addressOutOfRange) ∧
    (st.hr.length < a.toNat → exec (.reqRHR unit (.fields a 0x0000#16 rest)) s
      = .next (s.turnedAway unit 0x03#8 .addressOutOfRange s.excCode.addressOutOfRange)) ∧
    (a.toNat ≤ st.hr.length → exec (.reqRHR unit (.fields a 0x0000#16 rest)) s
      = .next { s with out := .reply .ok ([unit, 0x03#8, 0x00#8] ++
          [lo8 (crc16 [unit, 0x03#8, 0x00#8]), hi8 (crc16 [unit, 0x03#8, 0x00#8])]) })

/-! ## U5, the response decoder (spec/43_decoder.md) -/

/-- R164, R165: a bit-read response of `L` bytes with byte count `bc` at offset 2 gives no value where `5 + bc > L`, else `bc * 8`
values, not trimmed: value `8j + k` is bit `k` of the byte at offset `3 + j`, widened to 0 or 1. That a truncated
response gives no value is the spec's own decision (D14, R173, log entry 10). -/
def Obligations.DecodeBitResponses : Prop :=
  ∀ (s : State) (unit fc : Byte) (body : List Byte) (crc : Word) (i : Instr),
    (fc, i) ∈ [(0x01#8, Instr.rspRC unit body crc), (0x02#8, Instr.rspRDI unit body crc)] →
    let buf := unit :: fc :: body ++ [lo8 crc, hi8 crc]
    let bc := (buf.getD 2 0x00#8).toNat
    ∃ values : List Word,
      let d : Decoded :=
        { values := values, header := some { unit := unit, fc := fc, crcRx := crc }, excCode := none, info := none }
      let t : State := { s with out := .decoded d }
      exec i s = .next t ∧ exec (.decode buf) s = .next t ∧
      if buf.length < 5 + bc then values = []
      else values.length = bc * 8 ∧
        ∀ j k, j < bc → k < 8 →
          values[8 * j + k]? = some (if (buf.getD (3 + j) 0x00#8).getLsbD k = true then 0x0001#16 else 0x0000#16)

/-- R166, R167: a register-read response gives no value where `5 + bc > L`, else `bc div 2` values, each big-endian; an odd last
byte is ignored. Both the truncated response (D14, R173) and the odd byte (D15) are the spec's own decisions (log entry 10). -/
def Obligations.DecodeRegisterResponses : Prop :=
  ∀ (s : State) (unit fc : Byte) (body : List Byte) (crc : Word) (i : Instr),
    (fc, i) ∈ [(0x03#8, Instr.rspRHR unit body crc), (0x04#8, Instr.rspRIR unit body crc)] →
    let buf := unit :: fc :: body ++ [lo8 crc, hi8 crc]
    let bc := (buf.getD 2 0x00#8).toNat
    ∃ values : List Word,
      let d : Decoded :=
        { values := values, header := some { unit := unit, fc := fc, crcRx := crc }, excCode := none, info := none }
      let t : State := { s with out := .decoded d }
      exec i s = .next t ∧ exec (.decode buf) s = .next t ∧
      if buf.length < 5 + bc then values = []
      else values.length = bc / 2 ∧
        ∀ k, k < bc / 2 →
          values[k]? = some (be16 (buf.getD (3 + 2 * k) 0x00#8) (buf.getD (4 + 2 * k) 0x00#8))

/-- R168, R169, R170, R171: a write acknowledgement gives no value; the informational fields are the two big-endian fields at
offsets 2 and 4 where the ADU has at least eight bytes, and not valid otherwise. The condition `L >= 8` is the spec's own decision
(D16, log entry 10). -/
def Obligations.DecodeWriteAcknowledgements : Prop :=
  ∀ (s : State) (unit fc : Byte) (body : List Byte) (crc : Word) (i : Instr),
    (fc, i) ∈ [(0x05#8, Instr.rspWSC unit (parseBody body) crc), (0x06#8, Instr.rspWSR unit (parseBody body) crc),
      (0x0F#8, Instr.rspWMC unit (parseBody body) crc), (0x10#8, Instr.rspWMR unit (parseBody body) crc)] →
    let buf := unit :: fc :: body ++ [lo8 crc, hi8 crc]
    let info : Option AckInfo :=
      if 8 ≤ buf.length then
        some { addr := be16 (buf.getD 2 0x00#8) (buf.getD 3 0x00#8), val := be16 (buf.getD 4 0x00#8) (buf.getD 5 0x00#8) }
      else none
    let d : Decoded :=
      { values := [], header := some { unit := unit, fc := fc, crcRx := crc }, excCode := none, info := info }
    let t : State := { s with out := .decoded d }
    exec i s = .next t ∧ exec (.decode buf) s = .next t

/-- R163: a function code with bit 7 set is an exception response; its code is the byte at offset 2, whatever it is. -/
def Obligations.DecodeExceptionResponse : Prop :=
  ∀ (s : State) (unit fc : Byte) (body : List Byte) (crc : Word), fc.getLsbD 7 = true →
    let buf := unit :: fc :: body ++ [lo8 crc, hi8 crc]
    let d : Decoded :=
      { values := [], header := some { unit := unit, fc := fc, crcRx := crc }, excCode := buf[2]?, info := none }
    let t : State := { s with out := .decoded d }
    exec (.rspEXC unit fc body crc) s = .next t ∧ exec (.decode buf) s = .next t

/-- R172: any other function code below 0x80 gives no value, no informational field and no exception. -/
def Obligations.DecodeUnknownFunction : Prop :=
  ∀ (s : State) (unit fc : Byte) (body : List Byte) (crc : Word), fc.getLsbD 7 = false →
    fc ∉ [0x01#8, 0x02#8, 0x03#8, 0x04#8, 0x05#8, 0x06#8, 0x0F#8, 0x10#8] →
    let d : Decoded :=
      { values := [], header := some { unit := unit, fc := fc, crcRx := crc }, excCode := none, info := none }
    let t : State := { s with out := .decoded d }
    exec (.rspOther unit fc body crc) s = .next t ∧
    exec (.decode (unit :: fc :: body ++ [lo8 crc, hi8 crc])) s = .next t

/-- R161: a buffer of fewer than four bytes gives no value and no valid field. -/
def Obligations.DecodeShortBuffer : Prop :=
  ∀ (s : State) (buf : List Byte), buf.length < 4 →
    let d : Decoded := { values := [], header := none, excCode := none, info := none }
    exec (.decode buf) s = .next { s with out := .decoded d }

/-- R162: the decoder does not check the CRC: two ADUs that differ in the CRC field only decode alike but for `crc_rx` (with at
least one body byte, so that the byte at offset 2 is no CRC byte). -/
def Obligations.DecodeNeverChecksTheCrc : Prop :=
  ∀ (s : State) (unit fc b : Byte) (body : List Byte) (x y : Word),
    ∃ (values : List Word) (exc : Option Byte) (info : Option AckInfo),
      ∀ c : Word, c = x ∨ c = y →
        let d : Decoded :=
          { values := values, header := some { unit := unit, fc := fc, crcRx := c }, excCode := exc, info := info }
        exec (.decode (unit :: fc :: b :: body ++ [lo8 c, hi8 c])) s = .next { s with out := .decoded d }

/-- R160, R174: DECODE answers for every buffer and changes its outputs only; from an ADU of at most 256 bytes it gives at most 2008
values. -/
def Obligations.DecodeGivesAtMost2008Values : Prop :=
  ∀ (s : State) (buf : List Byte),
    ∃ d : Decoded, exec (.decode buf) s = .next { s with out := .decoded d } ∧
      (buf.length ≤ 256 → d.values.length ≤ 2008)

/-! ## U2, the Register Store: reset, and the whole machine -/

/-- R210, R213: RESET leaves the four banks holding `STORE_INIT`, whether or not a store existed, and nothing of an old one. That
it leaves no output and keeps the pending commands is log entry 9 (DEDUCED), that it keeps the option parameters is log entry 5
(DESIGN CHOICE). -/
def Obligations.ResetCreatesTheStore : Prop :=
  ∀ (init : Store) (s : State), exec (.reset init) s = .next { s with store := some init, out := .none }

/-- R34, R12: the state after reset: the banks hold `STORE_INIT`, arrays of the sizes `H`, `I`, `C`, `D`; the option parameters
have their defaults. -/
def Obligations.StateAfterReset : Prop :=
  ∃ st : Store, State.reset.store = some st ∧
    st.hr.length = Config.sizeH ∧ st.ir.length = Config.sizeI ∧ st.co.length = Config.sizeC ∧ st.di.length = Config.sizeD ∧
    (∀ k, k < Config.sizeH.val → st.hr[k]? = some (Config.initHR k)) ∧
    (∀ k, k < Config.sizeI.val → st.ir[k]? = some (Config.initIR k)) ∧
    (∀ k, k < Config.sizeC.val → st.co[k]? = some (Config.initCO k)) ∧
    (∀ k, k < Config.sizeD.val → st.di[k]? = some (Config.initDI k)) ∧
    State.reset.excAduEn = false ∧ State.reset.excCode = ⟨0x01#8, 0x02#8, 0x03#8⟩

/-- R213: without a store PROCESS, whole or by row, is refused by name (the spec's decision D21, log entry 8). -/
def Obligations.ProcessWithoutStoreIsRefused : Prop :=
  ∀ (s : State) (req : List Byte) (unit fc : Byte) (body : Body) (bytes : List Byte) (i : Instr), s.store = none →
    i ∈ [Instr.process req, .reqRC unit body, .reqRDI unit body, .reqRHR unit body, .reqRIR unit body,
      .reqWSC unit body, .reqWSR unit body, .reqWMC unit body, .reqWMR unit body, .reqOther unit fc bytes] →
    exec i s = .refused .noStore

/-- R33, R212: CRC16, ENCODE and DECODE answer with or without a store and change nothing but the outputs. -/
def Obligations.PureCommandsTouchOnlyTheirOutputs : Prop :=
  ∀ (s : State) (data buf : List Byte) (f : Descriptor) (i : Instr),
    i ∈ [Instr.crc16 data, .encode f, .decode buf] → ∃ o : Output, exec i s = .next { s with out := o }

/-- R22, R24, R25: where a store exists, no command but RESET changes an input register, a discrete input or the size of a bank,
or destroys the store. This rests on the spec's decision D20 (U16; log entry 8, DESIGN CHOICE): nothing but a command changes an
input inside the block, so the statement is false of a device whose inputs are live or whose host assigns to them between
commands. -/
def Obligations.OnlyResetChangesInputsAndSizes : Prop :=
  ∀ (s t : State) (st : Store) (c : Command) (rest : List Command),
    s.pending = c :: rest → (∀ init, c ≠ .reset init) → s.store = some st → step s = .next t →
    ∃ st', t.store = some st' ∧ st'.ir = st.ir ∧ st'.di = st.di ∧
      st'.hr.length = st.hr.length ∧ st'.co.length = st.co.length

/-- R28: no command writes an option parameter. That RESET, which R28 does not call a command, keeps them too is the model's
choice: log entry 5 (DESIGN CHOICE). -/
def Obligations.NoStepWritesTheOptionParameters : Prop :=
  ∀ (s t : State), step s = .next t → t.excAduEn = s.excAduEn ∧ t.excCode = s.excCode

/-- R29, R27: nothing a command leaves in its outputs is kept: the next command does the same whatever they were. -/
def Obligations.NextCommandForgetsEarlierOutputs : Prop :=
  ∀ (s : State) (o : Output), s.pending ≠ [] → step { s with out := o } = step s

/-- R35, R59, R10: every step keeps the store's form and leaves outputs within the capacities. -/
def Obligations.EveryStepKeepsTheForm : Prop :=
  ∀ (s t : State), s.inv = true → step s = .next t → t.inv = true

/-- R34, R10: the state after reset has the form, whatever the parameters are. -/
def Obligations.ResetHasTheForm : Prop :=
  State.reset.inv = true ∧ State.reset.ready = true

/-- R15, R188, R190: once a store exists, a block given commands of the spec's types never stops: every step answers a next state
from which the same holds. -/
def Obligations.AReadyBlockNeverStops : Prop :=
  ∀ s : State, s.ready = true → ∃ t, step s = .next t ∧ t.ready = true

/-- R26, R15: a step runs the oldest pending command's instruction, the command taken off the list; with none pending the block
waits, unchanged. The list of commands is the model's (log entry 4). -/
def Obligations.StepRunsTheDecodedCommand : Prop :=
  (∀ (s : State) (c : Command) (rest : List Command) (i : Instr),
    s.pending = c :: rest → decode c = .ok i → step s = exec i { s with pending := rest }) ∧
  (∀ s : State, s.pending = [] → step s = .next s)

/-- R35, R79, R10: a command outside the spec's input types is refused by name, and CRC16 has no length limit (R90). The refusals
are the model's rendering of "cannot be presented" (log entry 7). -/
def Obligations.UnpresentableCommandsAreRefused : Prop :=
  ∀ (s : State) (c : Command) (rest : List Command), s.pending = c :: rest →
    (∀ req, c = .process req → 256 < req.length → step s = .refused (.notPresentable .aduTooLong)) ∧
    (∀ buf, c = .decode buf → 256 < buf.length → step s = .refused (.notPresentable .aduTooLong)) ∧
    (∀ f bc, c = .encode f →
      (f.fc = 0x0F#8 ∧ bc = (f.quantity.toNat + 7) / 8 ∨ f.fc = 0x10#8 ∧ bc = f.quantity.toNat * 2) →
      f.payload.present = true → f.payload.len.toNat = bc → 9 + bc ≤ 256 → f.payload.bytes.length < bc →
      step s = .refused (.notPresentable .payloadLength)) ∧
    (∀ init, c = .reset init → 65536 < init.hr.length ∨ 65536 < init.ir.length ∨ 65536 < init.co.length ∨
      65536 < init.di.length → step s = .refused (.notPresentable .bankTooLarge)) ∧
    (∀ data, c = .crc16 data → step s = .next { s with pending := rest, out := .crc (crc16 data) })

/-! ## Encodings (spec/30_encoding.md) -/

/-- A few ADUs written out byte by byte from the formats RQ-A, RQ-C, RQ-B, RS-A, RS-B, RS-C and RS-E (R64 to R72). -/
def Obligations.AdusDecodeToTheirRows : Prop :=
  decode (.process [0x01#8, 0x03#8, 0x00#8, 0x0F#8, 0x00#8, 0x01#8, 0xB4#8, 0x09#8])
    = .ok (.reqRHR 0x01#8 (.fields 0x000F#16 0x0001#16 [])) ∧
  decode (.process [0x01#8, 0x0F#8, 0x00#8, 0x14#8, 0x00#8, 0x0A#8, 0x02#8, 0xCD#8, 0x01#8, 0x73#8, 0x7C#8])
    = .ok (.reqWMC 0x01#8 (.fields 0x0014#16 0x000A#16 [0x02#8, 0xCD#8, 0x01#8])) ∧
  decode (.process [0x01#8, 0x06#8, 0x00#8, 0x0F#8, 0x04#8, 0xD2#8, 0x3B#8, 0x54#8])
    = .ok (.reqWSR 0x01#8 (.fields 0x000F#16 0x04D2#16 [])) ∧
  decode (.decode [0x01#8, 0x01#8, 0x02#8, 0xCD#8, 0x01#8, 0x2C#8, 0xAC#8])
    = .ok (.rspRC 0x01#8 [0x02#8, 0xCD#8, 0x01#8] 0xAC2C#16) ∧
  decode (.decode [0x01#8, 0x83#8, 0x02#8, 0xC0#8, 0xF1#8])
    = .ok (.rspEXC 0x01#8 0x83#8 [0x02#8] 0xF1C0#16) ∧
  decode (.decode [0x01#8, 0x10#8, 0x00#8, 0x0A#8, 0x00#8, 0x03#8, 0xA0#8, 0x0A#8])
    = .ok (.rspWMR 0x01#8 (.fields 0x000A#16 0x0003#16 []) 0x0AA0#16)

/-- Decode and encode agree: every well-formed instruction but the three whole commands is what its own encoding decodes to, with
every operand at every value. (The whole commands ENCODE, PROCESS and DECODE decode to the row their function code
selects.) -/
def Obligations.DecodeOfEncodeIsTheInstruction : Prop :=
  ∀ i : Instr, i.wf = true →
    (∀ f, i ≠ .encode f) → (∀ req, i ≠ .process req) → (∀ buf, i ≠ .decode buf) →
    decode (encode i) = .ok i

/-- No bit of an ADU is dropped: a command that decodes to an instruction is what the instruction encodes to, except that a
descriptor's ignored fields (R110, R115) come back empty. -/
def Obligations.EncodeOfDecodeIsTheCommand : Prop :=
  ∀ (c : Command) (i : Instr), decode c = .ok i →
    encode i = c ∨
    ∃ f g : Descriptor, c = .encode f ∧ encode i = .encode g ∧
      g.unit = f.unit ∧ g.fc = f.fc ∧ g.address = f.address ∧ f.fc ≠ 0x0F#8 ∧ f.fc ≠ 0x10#8 ∧
      (g.quantity = f.quantity ∨ f.fc ∉ [0x01#8, 0x02#8, 0x03#8, 0x04#8, 0x05#8, 0x06#8])

/-- What the decoder gives is well-formed. -/
def Obligations.DecodedInstructionsAreWellFormed : Prop :=
  ∀ (c : Command) (i : Instr), decode c = .ok i → i.wf = true

/-! ## Through all three units -/

/-- C8, R50: registers written by an encoded request are read back by an encoded request and decoded to the values written, for
every unit id, every address and every values that fit the store and an ADU. -/
def Obligations.RegistersRoundTripThroughTheBlock : Prop :=
  ∀ (s : State) (st : Store) (unit : Byte) (a : Word) (vs : List Word),
    s.store = some st → a.toNat + vs.length ≤ st.hr.length → vs.length ≤ 123 →
    let n : Word := BitVec.ofNat 16 vs.length
    let payload : Payload :=
      { present := true, len := BitVec.ofNat 16 (2 * vs.length), bytes := vs.flatMap fun v => [hi8 v, lo8 v] }
    ∃ (s₁ s₂ s₃ s₄ s₅ : State) (w ack r resp : List Byte) (d : Decoded),
      exec (.encode { unit := unit, fc := 0x10#8, address := a, quantity := n, payload := payload }) s = .next s₁ ∧
      s₁.out = .reply .ok w ∧
      exec (.process w) s₁ = .next s₂ ∧ s₂.out = .reply .ok ack ∧
      exec (.encode { unit := unit, fc := 0x03#8, address := a, quantity := n, payload := Payload.absent }) s₂ = .next s₃ ∧
      s₃.out = .reply .ok r ∧
      exec (.process r) s₃ = .next s₄ ∧ s₄.out = .reply .ok resp ∧
      exec (.decode resp) s₄ = .next s₅ ∧ s₅.out = .decoded d ∧ d.values = vs

/-- C8, R176: coils written by an encoded request are read back and decoded to the bits written, followed up to the next multiple of
eight by padding entries that are 0. That the padding is 0 is the spec's own decision (D11, R139, log entry 10). -/
def Obligations.CoilsRoundTripThroughTheBlock : Prop :=
  ∀ (s : State) (st : Store) (unit : Byte) (a n : Word) (data : List Byte),
    s.store = some st → a.toNat + n.toNat ≤ st.co.length → data.length = (n.toNat + 7) / 8 → n.toNat ≤ 1976 →
    let payload : Payload := { present := true, len := BitVec.ofNat 16 data.length, bytes := data }
    ∃ (s₁ s₂ s₃ s₄ s₅ : State) (w ack r resp : List Byte) (d : Decoded),
      exec (.encode { unit := unit, fc := 0x0F#8, address := a, quantity := n, payload := payload }) s = .next s₁ ∧
      s₁.out = .reply .ok w ∧
      exec (.process w) s₁ = .next s₂ ∧ s₂.out = .reply .ok ack ∧
      exec (.encode { unit := unit, fc := 0x01#8, address := a, quantity := n, payload := Payload.absent }) s₂ = .next s₃ ∧
      s₃.out = .reply .ok r ∧
      exec (.process r) s₃ = .next s₄ ∧ s₄.out = .reply .ok resp ∧
      exec (.decode resp) s₄ = .next s₅ ∧ s₅.out = .decoded d ∧
      d.values.length = 8 * ((n.toNat + 7) / 8) ∧
      ∀ k, k < d.values.length → d.values[k]? =
        some (if k < n.toNat ∧ (data.getD (k / 8) 0x00#8).getLsbD (k % 8) = true then 0x0001#16 else 0x0000#16)
end

