-- ==== Sys2Proof/Laws/Banks.lean ====
section
/-!
SUPPORT. Laws/Banks.lean: the laws of MemRead and MemWrite (spec/20_memory.md R50, R57): a read after a write to the same
element gives the value written, every other element is left alone, and no operation changes the size of a bank or the
form of the store.
-/

namespace Sys2Proof.Machine

variable {α : Type}

theorem memRead_length (bank : List α) (a n : Nat) (h : a + n ≤ bank.length) :
    (memRead bank a n).length = n := by
  simp [memRead]; omega

/-- Element `i` of a read is element `a + i` of the bank. -/
theorem memRead_getElem? (bank : List α) (a n i : Nat) (h : i < n) :
    (memRead bank a n)[i]? = bank[a + i]? := by
  simp [memRead, h]

@[simp] theorem memWrite_length (bank : List α) (a : Nat) (vs : List α) :
    (memWrite bank a vs).length = bank.length := by
  induction vs generalizing bank a with
  | nil => rfl
  | cons v vs ih => simp [memWrite, ih]

/-- What a write leaves in every element: the value written inside the range, the old element outside it. -/
theorem memWrite_getElem? (bank : List α) (a : Nat) (vs : List α) (h : a + vs.length ≤ bank.length) (k : Nat) :
    (memWrite bank a vs)[k]? = if a ≤ k ∧ k < a + vs.length then vs[k - a]? else bank[k]? := by
  induction vs generalizing bank a with
  | nil =>
    have : ¬ (a ≤ k ∧ k < a + ([] : List α).length) := by simp only [List.length_nil]; omega
    rw [if_neg this]; rfl
  | cons v vs ih =>
    simp only [List.length_cons] at h
    rw [memWrite, ih _ _ (by rw [List.length_set]; omega)]
    by_cases hk : k = a
    · subst hk
      have h1 : ¬ (k + 1 ≤ k ∧ k < k + 1 + vs.length) := by omega
      have h2 : k ≤ k ∧ k < k + (v :: vs).length := by simp only [List.length_cons]; omega
      have hlt : k < bank.length := by omega
      rw [if_neg h1, if_pos h2, Nat.sub_self]
      simp [hlt]
    · by_cases hin : a + 1 ≤ k ∧ k < a + 1 + vs.length
      · have h2 : a ≤ k ∧ k < a + (v :: vs).length := by simp only [List.length_cons]; omega
        have e : k - a = (k - (a + 1)) + 1 := by omega
        rw [if_pos hin, if_pos h2, e, List.getElem?_cons_succ]
      · have h2 : ¬ (a ≤ k ∧ k < a + (v :: vs).length) := by simp only [List.length_cons]; omega
        rw [if_neg hin, if_neg h2, List.getElem?_set_ne (by omega)]

/-- An element outside the written range is left alone. -/
theorem memWrite_outside (bank : List α) (a : Nat) (vs : List α) (k : Nat) (h : k < a ∨ a + vs.length ≤ k) :
    (memWrite bank a vs)[k]? = bank[k]? := by
  induction vs generalizing bank a with
  | nil => rfl
  | cons v vs ih =>
    simp only [List.length_cons] at h
    rw [memWrite, ih _ _ (by omega), List.getElem?_set_ne (by omega)]

/-- A read of the range just written gives the values written (R50). -/
theorem memRead_memWrite (bank : List α) (a : Nat) (vs : List α) (h : a + vs.length ≤ bank.length) :
    memRead (memWrite bank a vs) a vs.length = vs := by
  apply List.ext_getElem?
  intro i
  by_cases hi : i < vs.length
  · rw [memRead_getElem? _ _ _ _ hi, memWrite_getElem? _ _ _ h, if_pos (by omega), Nat.add_sub_cancel_left]
  · rw [List.getElem?_eq_none (by rw [memRead_length _ _ _ (by simpa using h)]; omega),
      List.getElem?_eq_none (by omega)]

theorem memory_wf_iff (st : Store) :
    Memory.wf st = true ↔
      st.hr.length ≤ 65536 ∧ st.ir.length ≤ 65536 ∧ st.co.length ≤ 65536 ∧ st.di.length ≤ 65536 := by
  simp only [Memory.wf, Bool.and_eq_true, decide_eq_true_eq, and_assoc]

/-- A write to the coils keeps the store's form. -/
theorem memory_wf_write_co (st : Store) (a : Nat) (vs : List Bool) (h : Memory.wf st = true) :
    Memory.wf { st with co := memWrite st.co a vs } = true := by
  rw [memory_wf_iff] at *; simpa using h

/-- A write to the holding registers keeps the store's form. -/
theorem memory_wf_write_hr (st : Store) (a : Nat) (vs : List Word) (h : Memory.wf st = true) :
    Memory.wf { st with hr := memWrite st.hr a vs } = true := by
  rw [memory_wf_iff] at *; simpa using h

/-- The reset store has the form, whatever the sizes and contents. -/
theorem memory_wf_storeInit : Memory.wf Config.storeInit = true := by
  have := Config.sizeH.isLt
  have := Config.sizeI.isLt
  have := Config.sizeC.isLt
  have := Config.sizeD.isLt
  rw [memory_wf_iff]
  simp only [Config.storeInit, List.length_map, List.length_range]
  omega

end Sys2Proof.Machine
end

