-- ==== Sys2Proof/Laws/Wire.lean ====
section
/-!
SUPPORT. Laws/Wire.lean: the operand forms of the wire: a 16-bit field is read back as it was written, and where each element
of packed and unpacked data lies.
-/

namespace Sys2Proof.Machine

theorem be16_getLsbD (a b : Byte) (i : Nat) :
    (be16 a b).getLsbD i = if i < 8 then b.getLsbD i else a.getLsbD (i - 8) :=
  BitVec.getLsbD_append

theorem hi8_getLsbD (v : Word) (i : Nat) (h : i < 8) : (hi8 v).getLsbD i = v.getLsbD (8 + i) := by
  rw [hi8, BitVec.getLsbD_extractLsb', decide_eq_true h, Bool.true_and]

theorem lo8_getLsbD (v : Word) (i : Nat) (h : i < 8) : (lo8 v).getLsbD i = v.getLsbD i := by
  rw [lo8, BitVec.getLsbD_extractLsb', decide_eq_true h, Bool.true_and, Nat.zero_add]

@[simp] theorem hi8_be16 (a b : Byte) : hi8 (be16 a b) = a := by
  apply BitVec.eq_of_getLsbD_eq
  intro i hi
  rw [hi8_getLsbD _ i hi, be16_getLsbD, if_neg (by omega), Nat.add_sub_cancel_left]

@[simp] theorem lo8_be16 (a b : Byte) : lo8 (be16 a b) = b := by
  apply BitVec.eq_of_getLsbD_eq
  intro i hi
  rw [lo8_getLsbD _ i hi, be16_getLsbD, if_pos hi]

@[simp] theorem be16_hi8_lo8 (v : Word) : be16 (hi8 v) (lo8 v) = v := by
  apply BitVec.eq_of_getLsbD_eq
  intro i hi
  rw [be16_getLsbD]
  split
  · rename_i h
    exact lo8_getLsbD v i h
  · rename_i h
    rw [hi8_getLsbD v _ (by omega), Nat.add_sub_cancel' (by omega)]

theorem le16_eq_be16 (a b : Byte) : le16 a b = be16 b a := rfl

/-- The value of a big-endian field: `b0 * 256 + b1` (spec/00_scope.md section 6). -/
theorem be16_toNat (a b : Byte) : (be16 a b).toNat = a.toNat * 256 + b.toNat := by
  have := b.isLt
  simp only [be16, BitVec.toNat_append]
  rw [Nat.shiftLeft_eq, Nat.mul_comm, ← Nat.two_pow_add_eq_or_of_lt (by omega), Nat.mul_comm]

@[simp] theorem wordBytes_length (v : Word) : (wordBytes v).length = 2 := rfl

@[simp] theorem byteBits_length (b : Byte) : (byteBits b).length = 8 := rfl

theorem byteBits_getElem? (b : Byte) (k : Nat) (h : k < 8) : (byteBits b)[k]? = some (b.getLsbD k) := by
  rcases k with _ | _ | _ | _ | _ | _ | _ | _ | k <;> first | rfl | omega

@[simp] theorem unpackBits_nil : unpackBits [] = [] := rfl

@[simp] theorem unpackBits_cons (b : Byte) (data : List Byte) :
    unpackBits (b :: data) = byteBits b ++ unpackBits data := by simp [unpackBits]

@[simp] theorem unpackBits_length (data : List Byte) : (unpackBits data).length = 8 * data.length := by
  induction data with
  | nil => rfl
  | cons b data ih => simp [ih]; omega

/-- Bit `i` of a data area is bit `i mod 8` of byte `i div 8` (R45). -/
theorem unpackBits_getElem? (data : List Byte) (i : Nat) :
    (unpackBits data)[i]? = data[i / 8]?.map fun b => b.getLsbD (i % 8) := by
  induction data generalizing i with
  | nil => simp
  | cons b data ih =>
    rw [unpackBits_cons, List.getElem?_append, byteBits_length]
    by_cases h : i < 8
    · have h0 : i / 8 = 0 := by omega
      have h1 : i % 8 = i := by omega
      simp [h, h0, h1, byteBits_getElem? b i h]
    · have h0 : i / 8 = (i - 8) / 8 + 1 := by omega
      have h1 : i % 8 = (i - 8) % 8 := by omega
      simp only [h, if_false, ih, h0, List.getElem?_cons_succ, ← h1]

/-- The byte built from eight bits has exactly those bits. -/
theorem packByte_getLsbD (f : Nat → Bool) (k : Nat) (h : k < 8) : (packByte f).getLsbD k = f k := by
  have key : ∀ b0 b1 b2 b3 b4 b5 b6 b7 : Bool,
      byteBits (packByte fun k => [b0, b1, b2, b3, b4, b5, b6, b7].getD k false)
        = [b0, b1, b2, b3, b4, b5, b6, b7] := by decide
  have same : packByte f
      = packByte fun k => [f 0, f 1, f 2, f 3, f 4, f 5, f 6, f 7].getD k false := by
    simp [packByte, List.range, List.range.loop]
  have e := congrArg (fun l : List Bool => l[k]?) (key (f 0) (f 1) (f 2) (f 3) (f 4) (f 5) (f 6) (f 7))
  rw [← same] at e
  simp only [byteBits_getElem? _ k h] at e
  rcases k with _ | _ | _ | _ | _ | _ | _ | _ | k
  all_goals first | exact Option.some.inj e | omega

@[simp] theorem packBits_length (bits : List Bool) : (packBits bits).length = ceil8 bits.length := by
  simp [packBits]

theorem packBits_getElem? (bits : List Bool) (j : Nat) (h : j < ceil8 bits.length) :
    (packBits bits)[j]? = some (packByte fun k => bits.getD (8 * j + k) false) := by
  simp [packBits, h]

/-- Unpacking packed bits gives the bits back, followed by padding that is 0 (R45, R139). -/
theorem unpackBits_packBits_getElem? (bits : List Bool) (i : Nat) :
    (unpackBits (packBits bits))[i]?
      = if i < 8 * ceil8 bits.length then some (bits.getD i false) else none := by
  rw [unpackBits_getElem?]
  by_cases h : i < 8 * ceil8 bits.length
  · have hj : i / 8 < ceil8 bits.length := by omega
    have hi : 8 * (i / 8) + i % 8 = i := by omega
    rw [packBits_getElem? bits _ hj, Option.map_some,
      packByte_getLsbD _ _ (Nat.mod_lt _ (by decide)), hi, if_pos h]
  · have hj : ¬ i / 8 < (packBits bits).length := by simp only [packBits_length]; omega
    simp [h, List.getElem?_eq_none (Nat.le_of_not_lt hj)]

@[simp] theorem packRegs_nil : packRegs [] = [] := rfl

@[simp] theorem packRegs_cons (v : Word) (vs : List Word) :
    packRegs (v :: vs) = hi8 v :: lo8 v :: packRegs vs := by simp [packRegs, wordBytes]

@[simp] theorem packRegs_length (vs : List Word) : (packRegs vs).length = vs.length * 2 := by
  induction vs with
  | nil => rfl
  | cons v vs ih => simp [ih]; omega

@[simp] theorem unpackRegs_packRegs (vs : List Word) : unpackRegs (packRegs vs) = vs := by
  induction vs with
  | nil => rfl
  | cons v vs ih => simp [unpackRegs, ih]

@[simp] theorem unpackRegs_length (data : List Byte) : (unpackRegs data).length = data.length / 2 := by
  induction data using unpackRegs.induct with
  | case1 a b rest ih => simp [unpackRegs, ih]; omega
  | case2 data h =>
    rcases data with _ | ⟨a, _ | ⟨b, rest⟩⟩
    · rfl
    · simp [unpackRegs]
    · exact absurd rfl (h a b rest)

/-- Register `i` of a data area is its bytes `2i` and `2i + 1`, big-endian (R67, R70). -/
theorem unpackRegs_getElem? (data : List Byte) (i : Nat) (h : 2 * i + 1 < data.length) :
    (unpackRegs data)[i]? = some (be16 data[2 * i] data[2 * i + 1]) := by
  induction data using unpackRegs.induct generalizing i with
  | case1 a b rest ih =>
    cases i with
    | zero => rfl
    | succ i =>
      have h' : 2 * i + 1 < rest.length := by simp only [List.length_cons] at h; omega
      have e : 2 * (i + 1) = 2 * i + 1 + 1 := by omega
      simp [unpackRegs, ih i h', e]
  | case2 data hn =>
    rcases data with _ | ⟨a, _ | ⟨b, rest⟩⟩
    · simp at h
    · simp at h
    · exact absurd rfl (hn a b rest)

@[simp] theorem bodyBytes_length (b : Body) : (bodyBytes b).length = b.length := by
  cases b <;> simp [bodyBytes, Body.length]; omega

/-- The bytes of a body read back as the same fields (R74). -/
theorem parseBody_bodyBytes (b : Body) (h : b.wf = true) : parseBody (bodyBytes b) = b := by
  cases b with
  | fields a v rest => simp [bodyBytes, wordBytes, parseBody]
  | short bytes =>
    have h4 : bytes.length < 4 := of_decide_eq_true h
    rcases bytes with _ | ⟨_, _ | ⟨_, _ | ⟨_, _ | ⟨_, rest⟩⟩⟩⟩ <;>
      first
        | rfl
        | (exfalso; simp only [List.length_cons] at h4; omega)

theorem bodyBytes_parseBody (bytes : List Byte) : bodyBytes (parseBody bytes) = bytes := by
  rcases bytes with _ | ⟨_, _ | ⟨_, _ | ⟨_, _ | ⟨_, rest⟩⟩⟩⟩ <;>
    simp [parseBody, bodyBytes, wordBytes]

end Sys2Proof.Machine
end

