-- ==== Sys2Proof/Laws/Crc.lean ====
section
/-!
SUPPORT. Laws/Crc.lean: the CRC engine: continuing a CRC from the CRC of a longer sequence's beginning, and the facts about
rounds that the residue property (spec/40_crc.md R95) rests on.
-/

namespace Sys2Proof.Machine

/-- The CRC of a sequence is continued from the CRC of its beginning (R92). -/
theorem crc16_append (s t : List Byte) : crc16 (s ++ t) = t.foldl crcStep (crc16 s) := by
  simp [crc16, List.foldl_append]

theorem crcRound_getLsbD (a : Word) (i : Nat) (h : i < 16) :
    (crcRound a).getLsbD i = ((decide (i + 1 < 16) && a.getLsbD (i + 1)) ^^ (a.getLsbD 0 && (0xA001#16).getLsbD i)) := by
  unfold crcRound
  by_cases h0 : a.getLsbD 0 = true
  · simp only [h0, if_true, BitVec.getLsbD_xor, BitVec.getLsbD_ushiftRight, Bool.true_and, Nat.add_comm 1 i]
    congr 1
    by_cases h1 : i + 1 < 16
    · simp [h1]
    · have : 16 ≤ i + 1 := by omega
      simp [h1, BitVec.getLsbD_of_ge _ _ this]
  · simp only [h0, if_false, BitVec.getLsbD_ushiftRight, Bool.false_and, Bool.xor_false, Nat.add_comm 1 i, Bool.false_eq_true]
    by_cases h1 : i + 1 < 16
    · simp [h1]
    · have : 16 ≤ i + 1 := by omega
      simp [h1, BitVec.getLsbD_of_ge _ _ this]

/-- A round loses nothing: bit 15 after it says whether the polynomial was applied. -/
theorem crcRound_injective {a b : Word} (h : crcRound a = crcRound b) : a = b := by
  have bit : ∀ i, i < 16 → (crcRound a).getLsbD i = (crcRound b).getLsbD i := fun i _ => by rw [h]
  have h0 : a.getLsbD 0 = b.getLsbD 0 := by
    have := bit 15 (by decide)
    rw [crcRound_getLsbD a 15 (by decide), crcRound_getLsbD b 15 (by decide)] at this
    simpa using this
  apply BitVec.eq_of_getLsbD_eq
  intro i hi
  cases i with
  | zero => exact h0
  | succ i =>
    have := bit i (by omega)
    rw [crcRound_getLsbD a i (by omega), crcRound_getLsbD b i (by omega), h0] at this
    simpa [hi] using this

theorem crcRounds_injective (k : Nat) {a b : Word} (h : crcRounds k a = crcRounds k b) : a = b := by
  induction k generalizing a b with
  | zero => exact h
  | succ k ih => exact crcRound_injective (ih h)

/-- A round on an accumulator whose low bit is clear is a shift. -/
theorem crcRound_of_even (a : Word) (h : a.getLsbD 0 = false) : crcRound a = a >>> 1 := by
  rw [crcRound, h, if_neg (by decide)]

/-- Rounds that only shift out cleared bits are one shift. -/
theorem crcRounds_of_low_clear (k : Nat) (a : Word) (h : ∀ i, i < k → a.getLsbD i = false) :
    crcRounds k a = a >>> k := by
  induction k generalizing a with
  | zero => simp [crcRounds]
  | succ k ih =>
    have h0 : a.getLsbD 0 = false := h 0 (by omega)
    rw [crcRounds, crcRound_of_even a h0, ih, ← BitVec.shiftRight_add, Nat.add_comm]
    intro i hi
    rw [BitVec.getLsbD_ushiftRight, Nat.add_comm]
    exact h (i + 1) (by omega)

@[simp] theorem crcBytes_length (c : Word) : (crcBytes c).length = 2 := rfl

@[simp] theorem sealAdu_length (bytes : List Byte) : (sealAdu bytes).length = bytes.length + 2 := by
  simp [sealAdu]

@[simp] theorem le16_crcBytes (c : Word) : le16 (lo8 c) (hi8 c) = c := by
  rw [le16_eq_be16, be16_hi8_lo8]

end Sys2Proof.Machine
end

