-- ==== Sys2Proof/Laws/Decode.lean ====
section
/-!
SUPPORT. Laws/Decode.lean: splitting an ADU into its parts and putting it together again, and the function-code map.
-/

namespace Sys2Proof

open Sys2Proof.Machine

/-- The parts of an ADU put together again (R60). -/
def AduParts.bytes (p : AduParts) : List Byte := p.unit :: p.fc :: p.body ++ crcBytes p.crc

theorem splitCrc_append (body : List Byte) (crc : Word) :
    splitCrc (body ++ crcBytes crc) = some (body, crc) := by
  induction body with
  | nil => simp [crcBytes, splitCrc]
  | cons b body ih =>
    rcases body with _ | ⟨b', body⟩
    · simp [crcBytes, splitCrc]
    · rcases body with _ | ⟨b'', body⟩
      · simp [crcBytes, splitCrc]
      · simp only [List.cons_append] at ih ⊢
        rw [splitCrc, ih]

theorem splitCrc_eq_none {rest : List Byte} (h : splitCrc rest = none) : rest.length < 2 := by
  induction rest using splitCrc.induct with
  | case1 => simp
  | case2 => simp
  | case3 lo hi => simp [splitCrc] at h
  | case4 b b' b'' rest body crc e ih => simp [splitCrc, e] at h
  | case5 b b' b'' rest e ih =>
    have := ih e
    simp only [List.length_cons] at this
    omega

theorem splitCrc_eq_some {rest body : List Byte} {crc : Word} (h : splitCrc rest = some (body, crc)) :
    rest = body ++ crcBytes crc := by
  induction rest using splitCrc.induct generalizing body crc with
  | case1 => simp [splitCrc] at h
  | case2 => simp [splitCrc] at h
  | case3 lo hi =>
    simp only [splitCrc, Option.some.injEq, Prod.mk.injEq] at h
    obtain ⟨rfl, rfl⟩ := h
    simp [crcBytes, le16_eq_be16]
  | case4 b b' b'' rest body' crc' e ih =>
    rw [splitCrc, e] at h
    simp only [Option.some.injEq, Prod.mk.injEq] at h
    obtain ⟨rfl, rfl⟩ := h
    rw [ih e]; rfl
  | case5 b b' b'' rest e ih => rw [splitCrc, e] at h; simp at h

@[simp] theorem AduParts.bytes_length (p : AduParts) : p.bytes.length = p.body.length + 4 := by
  simp [AduParts.bytes]

/-- Splitting an ADU gives its parts back. -/
@[simp] theorem splitAdu_bytes (p : AduParts) : splitAdu p.bytes = some p := by
  simp only [AduParts.bytes, List.cons_append, splitAdu]
  rw [splitCrc_append]

/-- An ADU that splits is its parts put together. -/
theorem splitAdu_eq_some_iff {adu : List Byte} {p : AduParts} : splitAdu adu = some p ↔ adu = p.bytes := by
  constructor
  · intro h
    rcases adu with _ | ⟨unit, _ | ⟨fc, rest⟩⟩
    · simp [splitAdu] at h
    · simp [splitAdu] at h
    · cases e : splitCrc rest with
      | none => simp [splitAdu, e] at h
      | some r =>
        simp only [splitAdu, e, Option.some.injEq] at h
        subst h
        rw [splitCrc_eq_some e]; rfl
  · rintro rfl; exact splitAdu_bytes p

/-- Exactly the byte sequences shorter than four bytes do not split (R61). -/
theorem splitAdu_eq_none_iff {adu : List Byte} : splitAdu adu = none ↔ adu.length < 4 := by
  constructor
  · intro h
    rcases adu with _ | ⟨unit, _ | ⟨fc, rest⟩⟩
    · simp
    · simp
    · cases e : splitCrc rest with
      | none => have := splitCrc_eq_none e; simp only [List.length_cons]; omega
      | some r => simp [splitAdu, e] at h
  · intro h
    cases e : splitAdu adu with
    | none => rfl
    | some p =>
      rw [splitAdu_eq_some_iff] at e
      rw [e, AduParts.bytes_length] at h
      omega

/-- An ADU of at least four bytes is some parts put together. -/
theorem exists_parts {adu : List Byte} (h : 4 ≤ adu.length) : ∃ p : AduParts, adu = p.bytes := by
  cases e : splitAdu adu with
  | none => rw [splitAdu_eq_none_iff] at e; omega
  | some p => exact ⟨p, splitAdu_eq_some_iff.mp e⟩

/-- An ADU whose CRC field is right is its covered bytes with the CRC appended (R62). -/
theorem bytes_eq_sealAdu (p : AduParts) (h : crc16 p.covered = p.crc) : p.bytes = sealAdu p.covered := by
  rw [sealAdu, h]; rfl

theorem sealAdu_eq_bytes (unit fc : Byte) (body : List Byte) :
    sealAdu (unit :: fc :: body) = (AduParts.mk unit fc body (crc16 (unit :: fc :: body))).bytes := rfl

/-- The byte of a function code (R63). -/
def FunctionCode.byte : FunctionCode → Byte
  | .rc => 0x01#8
  | .rdi => 0x02#8
  | .rhr => 0x03#8
  | .rir => 0x04#8
  | .wsc => 0x05#8
  | .wsr => 0x06#8
  | .wmc => 0x0F#8
  | .wmr => 0x10#8

@[simp] theorem functionCode?_byte (k : FunctionCode) : functionCode? k.byte = some k := by
  cases k <;> rfl

/-- A byte names a function code exactly if it is that code's byte. -/
theorem functionCode?_eq_some_iff {fc : Byte} {k : FunctionCode} : functionCode? fc = some k ↔ fc = k.byte := by
  constructor
  · intro h
    unfold functionCode? at h
    repeat' split at h
    all_goals first | (cases h; assumption) | cases h
  · rintro rfl; exact functionCode?_byte k

/-- A byte names none exactly if it is not in the supported set. -/
theorem functionCode?_eq_none_iff {fc : Byte} : functionCode? fc = none ↔ isSupported fc = false := by
  have : ∀ fc : Byte, (functionCode? fc).isNone = !isSupported fc := by decide
  have h := this fc
  cases hf : functionCode? fc <;> cases hs : isSupported fc <;> simp_all

/-- A function code has bit 7 clear, so the test for an exception response never hides one (R163). -/
theorem FunctionCode.byte_bit7 (k : FunctionCode) : k.byte.getLsbD 7 = false := by
  cases k <;> rfl

end Sys2Proof
end

