-- ==== Sys2Proof/Laws/State.lean ====
section
/-!
SUPPORT. Laws/State.lean: what each update of the state leaves in each field, and what raising a status is.
-/

namespace Sys2Proof.Machine

variable (s : State) (o : Output) (st : Store) (e : Status) (adu : List Byte) (c : Command)

@[simp] theorem State.emit_store : (s.emit o).store = s.store := rfl
@[simp] theorem State.emit_excAduEn : (s.emit o).excAduEn = s.excAduEn := rfl
@[simp] theorem State.emit_excCode : (s.emit o).excCode = s.excCode := rfl
@[simp] theorem State.emit_pending : (s.emit o).pending = s.pending := rfl
@[simp] theorem State.emit_out : (s.emit o).out = o := rfl

@[simp] theorem State.reply_store : (s.reply e adu).store = s.store := rfl
@[simp] theorem State.reply_excAduEn : (s.reply e adu).excAduEn = s.excAduEn := rfl
@[simp] theorem State.reply_excCode : (s.reply e adu).excCode = s.excCode := rfl
@[simp] theorem State.reply_pending : (s.reply e adu).pending = s.pending := rfl
@[simp] theorem State.reply_out : (s.reply e adu).out = .reply e adu := rfl

@[simp] theorem State.present_store : (s.present c).store = s.store := rfl
@[simp] theorem State.present_excAduEn : (s.present c).excAduEn = s.excAduEn := rfl
@[simp] theorem State.present_excCode : (s.present c).excCode = s.excCode := rfl
@[simp] theorem State.present_pending : (s.present c).pending = s.pending ++ [c] := rfl
@[simp] theorem State.present_out : (s.present c).out = s.out := rfl

@[simp] theorem State.destroyStore_store : s.destroyStore.store = none := rfl
@[simp] theorem State.destroyStore_excAduEn : s.destroyStore.excAduEn = s.excAduEn := rfl
@[simp] theorem State.destroyStore_excCode : s.destroyStore.excCode = s.excCode := rfl
@[simp] theorem State.destroyStore_pending : s.destroyStore.pending = s.pending := rfl
@[simp] theorem State.destroyStore_out : s.destroyStore.out = s.out := rfl

@[simp] theorem State.assignStore_store : (s.assignStore st).store = some st := rfl
@[simp] theorem State.assignStore_excAduEn : (s.assignStore st).excAduEn = s.excAduEn := rfl
@[simp] theorem State.assignStore_excCode : (s.assignStore st).excCode = s.excCode := rfl
@[simp] theorem State.assignStore_pending : (s.assignStore st).pending = s.pending := rfl
@[simp] theorem State.assignStore_out : (s.assignStore st).out = s.out := rfl

/-- The outputs of the last command never reach the exception ADU. -/
@[simp] theorem State.exceptionAdu_emit (u fc : Byte) :
    (s.emit o).exceptionAdu u fc e = s.exceptionAdu u fc e := rfl

theorem State.raise_none : s.raise e none = s.emit (.reply e []) := rfl

theorem State.raise_some (u fc : Byte) :
    s.raise e (some (u, fc)) = s.emit (.reply e (s.exceptionAdu u fc e)) := rfl

/-- Raising a status changes the outputs and nothing else (R189). -/
theorem State.raise_frame (h : Option (Byte × Byte)) :
    ∃ adu, s.raise e h = s.emit (.reply e adu) := by
  cases h with
  | none => exact ⟨[], rfl⟩
  | some p => exact ⟨s.exceptionAdu p.1 p.2 e, rfl⟩

end Sys2Proof.Machine
end

