-- ==== Sys2Proof/Laws/Ops.lean ====
section
/-!
SUPPORT. Laws/Ops.lean: everything serving a request can do, said once.
-/

namespace Sys2Proof.Machine

/-- Serving a request answers a next state only with a store, and then either raises the status the rule raised or delivers
the sealed response with the store the rule gives. -/
theorem serve_cases {s t : State} {unit fc : Byte} {f : Store → Except Status (Store × List Byte)}
    (h : s.serve unit fc f = .next t) :
    ∃ st, s.store = some st ∧
      ((∃ e, f st = .error e ∧ t = s.emit (.reply e (s.exceptionAdu unit fc e))) ∨
       (∃ st' body, f st = .ok (st', body) ∧
          t = { s with store := some st', out := .reply .ok (sealAdu (unit :: fc :: body)) })) := by
  unfold State.serve at h
  split at h
  · cases h
  · rename_i st hst
    refine ⟨st, hst, ?_⟩
    split at h
    · rename_i e he
      exact .inl ⟨e, he, (Host.Outcome.next.inj h).symm⟩
    · rename_i st' body hb
      exact .inr ⟨st', body, hb, (Host.Outcome.next.inj h).symm⟩

/-- Without a store serving is refused (R213). -/
theorem serve_no_store {s : State} (h : s.store = none) (unit fc : Byte)
    (f : Store → Except Status (Store × List Byte)) : s.serve unit fc f = .refused .noStore := by
  unfold State.serve; rw [h]

/-- A rule that raises a status: the status and the exception ADU are the outputs, nothing else changes (R189). -/
theorem serve_error {s : State} {st : Store} (h : s.store = some st) {unit fc : Byte}
    {f : Store → Except Status (Store × List Byte)} {e : Status} (he : f st = .error e) :
    s.serve unit fc f = .next (s.emit (.reply e (s.exceptionAdu unit fc e))) := by
  unfold State.serve; rw [h]; simp only [he]; rfl

/-- A rule that succeeds: its store and its sealed response (R134). -/
theorem serve_ok {s : State} {st st' : Store} (h : s.store = some st) {unit fc : Byte} {body : List Byte}
    {f : Store → Except Status (Store × List Byte)} (hf : f st = .ok (st', body)) :
    s.serve unit fc f
      = .next { s with store := some st', out := .reply .ok (sealAdu (unit :: fc :: body)) } := by
  unfold State.serve; rw [h]; simp only [hf]

/-- The exception ADU has 5 bytes or none (R72, R141). -/
theorem exceptionAdu_length (s : State) (unit fc : Byte) (e : Status) :
    (s.exceptionAdu unit fc e).length = 0 ∨ (s.exceptionAdu unit fc e).length = 5 := by
  unfold State.exceptionAdu
  split
  · split
    · right; simp
    · left; rfl
  · left; rfl

/-- With the option off there is no exception ADU (R135). -/
theorem exceptionAdu_off (s : State) (h : s.excAduEn = false) (unit fc : Byte) (e : Status) :
    s.exceptionAdu unit fc e = [] := by
  simp [State.exceptionAdu, h]

end Sys2Proof.Machine
end

