-- ==== Sys2Proof/Laws/PerInstr.lean ====
section
/-!
SUPPORT. Laws/PerInstr.lean: for every instruction, by constructor: a well-formed instruction can be presented, that is, the
decoder has no reason to reject the command that encodes it.
-/

namespace Sys2Proof.Laws.Presentable

open Sys2Proof.Machine

/-- A well-formed instruction's encoding is presentable. -/
def Statement (i : Instr) : Prop := i.wf = true → rejection? (encode i) = none

theorem body_fits {b : Body} (h : b.wf = true) : 4 + (bodyBytes b).length ≤ 256 := by
  rw [bodyBytes_length]
  cases b with
  | short l => have : l.length < 4 := of_decide_eq_true h; simp only [Body.length]; omega
  | fields a v r => have : 8 + r.length ≤ 256 := of_decide_eq_true h; simp only [Body.length]; omega

/-- A request whose body fits is presentable. -/
theorem request_fits (unit fc : Byte) {body : List Byte} (h : 4 + body.length ≤ 256) :
    rejection? (requestOf unit fc body) = none := by
  simp only [requestOf, rejection?]
  rw [if_pos]
  rw [sealAdu_length]; simp only [List.length_cons]; show _ ≤ 256; omega

/-- A response whose body fits is presentable. -/
theorem response_fits (unit fc : Byte) {body : List Byte} (crc : Word) (h : 4 + body.length ≤ 256) :
    rejection? (responseOf unit fc body crc) = none := by
  simp only [responseOf, rejection?]
  rw [if_pos]
  simp only [List.cons_append, List.length_cons, List.length_append, crcBytes_length]; show _ ≤ 256; omega

/-- A descriptor without a payload is presentable, whatever its function code. -/
theorem descriptor_fits (unit fc : Byte) (address quantity : Word) :
    rejection? (descriptorOf unit fc address quantity) = none := by
  simp only [descriptorOf, rejection?, Descriptor.wf]
  rw [if_pos]
  split
  · rfl
  · split <;> rfl

theorem crc16 (data) : Statement (.crc16 data) := fun _ => rfl

theorem encode (f) : Statement (.encode f) := fun h => if_pos h

theorem process (req) : Statement (.process req) := fun h => if_pos (of_decide_eq_true h)

theorem decode (buf) : Statement (.decode buf) := fun h => if_pos (of_decide_eq_true h)

theorem reset (init) : Statement (.reset init) := fun h => if_pos h

theorem encRC (u a q) : Statement (.encRC u a q) := fun _ => descriptor_fits _ _ _ _

theorem encRDI (u a q) : Statement (.encRDI u a q) := fun _ => descriptor_fits _ _ _ _

theorem encRHR (u a q) : Statement (.encRHR u a q) := fun _ => descriptor_fits _ _ _ _

theorem encRIR (u a q) : Statement (.encRIR u a q) := fun _ => descriptor_fits _ _ _ _

theorem encWSC (u a q) : Statement (.encWSC u a q) := fun _ => descriptor_fits _ _ _ _

theorem encWSR (u a q) : Statement (.encWSR u a q) := fun _ => descriptor_fits _ _ _ _

theorem encWMC (u a q p) : Statement (.encWMC u a q p) := fun h => if_pos h

theorem encWMR (u a q p) : Statement (.encWMR u a q p) := fun h => if_pos h

theorem encOther (u fc a) : Statement (.encOther u fc a) := fun _ => descriptor_fits _ _ _ _

theorem reqRC (u b) : Statement (.reqRC u b) := fun h => request_fits _ _ (body_fits h)

theorem reqRDI (u b) : Statement (.reqRDI u b) := fun h => request_fits _ _ (body_fits h)

theorem reqRHR (u b) : Statement (.reqRHR u b) := fun h => request_fits _ _ (body_fits h)

theorem reqRIR (u b) : Statement (.reqRIR u b) := fun h => request_fits _ _ (body_fits h)

theorem reqWSC (u b) : Statement (.reqWSC u b) := fun h => request_fits _ _ (body_fits h)

theorem reqWSR (u b) : Statement (.reqWSR u b) := fun h => request_fits _ _ (body_fits h)

theorem reqWMC (u b) : Statement (.reqWMC u b) := fun h => request_fits _ _ (body_fits h)

theorem reqWMR (u b) : Statement (.reqWMR u b) := fun h => request_fits _ _ (body_fits h)

theorem reqOther (u fc b) : Statement (.reqOther u fc b) := fun h =>
  request_fits _ _ (of_decide_eq_true (Bool.and_eq_true_iff.mp h).2)

theorem rspEXC (u fc b crc) : Statement (.rspEXC u fc b crc) := fun h =>
  response_fits _ _ _ (of_decide_eq_true (Bool.and_eq_true_iff.mp h).2)

theorem rspRC (u b crc) : Statement (.rspRC u b crc) := fun h => response_fits _ _ _ (of_decide_eq_true h)

theorem rspRDI (u b crc) : Statement (.rspRDI u b crc) := fun h => response_fits _ _ _ (of_decide_eq_true h)

theorem rspRHR (u b crc) : Statement (.rspRHR u b crc) := fun h => response_fits _ _ _ (of_decide_eq_true h)

theorem rspRIR (u b crc) : Statement (.rspRIR u b crc) := fun h => response_fits _ _ _ (of_decide_eq_true h)

theorem rspWSC (u b crc) : Statement (.rspWSC u b crc) := fun h => response_fits _ _ _ (body_fits h)

theorem rspWSR (u b crc) : Statement (.rspWSR u b crc) := fun h => response_fits _ _ _ (body_fits h)

theorem rspWMC (u b crc) : Statement (.rspWMC u b crc) := fun h => response_fits _ _ _ (body_fits h)

theorem rspWMR (u b crc) : Statement (.rspWMR u b crc) := fun h => response_fits _ _ _ (body_fits h)

theorem rspOther (u fc b crc) : Statement (.rspOther u fc b crc) := fun h =>
  response_fits _ _ _ (of_decide_eq_true (Bool.and_eq_true_iff.mp h).2)

end Sys2Proof.Laws.Presentable
end

