-- ==== Sys2Proof/Laws/Rules.lean ====
section
/-!
SUPPORT. Laws/Rules.lean: what each shared rule of the request processor can answer, said once: which status it can raise, and
what its store and its response body are where it succeeds.
-/

namespace Sys2Proof.Machine

/-- The statuses a function's own rule can raise: never OK, CRC_ERROR or UNSUPPORTED_FUNCTION (R144). -/
def Status.ofRule (e : Status) : Prop := e = .addressOutOfRange ∨ e = .invalidValue

theorem readBitBank_error {bank : List Bool} {b : Body} {e : Status} (h : readBitBank bank b = .error e) :
    e.ofRule := by
  unfold readBitBank at h
  repeat' split at h
  all_goals cases h
  all_goals simp [Status.ofRule]

theorem readRegBank_error {bank : List Word} {b : Body} {e : Status} (h : readRegBank bank b = .error e) :
    e.ofRule := by
  unfold readRegBank at h
  repeat' split at h
  all_goals cases h
  all_goals simp [Status.ofRule]

theorem writeOne_error {α : Type} {bank : List α} {value : Word → α} {b : Body} {e : Status}
    (h : writeOne bank value b = .error e) : e.ofRule := by
  unfold writeOne at h
  repeat' split at h
  all_goals cases h
  all_goals simp [Status.ofRule]

theorem writeMany_error {α : Type} {bank : List α} {derived : Nat → Nat} {unpack : List Byte → List α} {b : Body}
    {e : Status} (h : writeMany bank derived unpack b = .error e) : e.ofRule := by
  unfold writeMany at h
  repeat' split at h
  all_goals cases h
  all_goals simp [Status.ofRule]

/-- A bit read that succeeds: the range lies in the bank, the response fits, and the body is the byte count and the packed
elements. -/
theorem readBitBank_ok {bank : List Bool} {b : Body} {body : List Byte} (h : readBitBank bank b = .ok body) :
    ∃ a q rest, b = .fields a q rest ∧ a.toNat + q.toNat ≤ bank.length ∧ 5 + ceil8 q.toNat ≤ 256 ∧
      body = BitVec.ofNat 8 (ceil8 q.toNat) :: packBits (memRead bank a.toNat q.toNat) := by
  unfold readBitBank at h
  repeat' split at h
  all_goals cases h
  rename_i a q rest h1 h2
  exact ⟨a, q, rest, rfl, Nat.le_of_not_lt h1, Nat.le_of_not_lt h2, rfl⟩

/-- A register read that succeeds, likewise. -/
theorem readRegBank_ok {bank : List Word} {b : Body} {body : List Byte} (h : readRegBank bank b = .ok body) :
    ∃ a q rest, b = .fields a q rest ∧ a.toNat + q.toNat ≤ bank.length ∧ 5 + q.toNat * 2 ≤ 256 ∧
      body = BitVec.ofNat 8 (q.toNat * 2) :: packRegs (memRead bank a.toNat q.toNat) := by
  unfold readRegBank at h
  repeat' split at h
  all_goals cases h
  rename_i a q rest h1 h2
  exact ⟨a, q, rest, rfl, Nat.le_of_not_lt h1, Nat.le_of_not_lt h2, rfl⟩

/-- A single write that succeeds: the one element, and the echo. -/
theorem writeOne_ok {α : Type} {bank : List α} {value : Word → α} {b : Body} {r : List α × List Byte}
    (h : writeOne bank value b = .ok r) :
    ∃ a v rest, b = .fields a v rest ∧ a.toNat < bank.length ∧
      r = (memWrite bank a.toNat [value v], echoBytes a v) := by
  unfold writeOne at h
  repeat' split at h
  all_goals cases h
  rename_i a v rest h1
  exact ⟨a, v, rest, rfl, by omega, rfl⟩

/-- A multiple write that succeeds: every test passed, the elements of the range, and the echo. -/
theorem writeMany_ok {α : Type} {bank : List α} {derived : Nat → Nat} {unpack : List Byte → List α} {b : Body}
    {r : List α × List Byte} (h : writeMany bank derived unpack b = .ok r) :
    ∃ a q bc data, b = .fields a q (bc :: data) ∧ a.toNat + q.toNat ≤ bank.length ∧
      bc.toNat = derived q.toNat ∧ bc.toNat ≤ data.length ∧
      r = (memWrite bank a.toNat ((unpack (data.take bc.toNat)).take q.toNat), echoBytes a q) := by
  unfold writeMany at h
  repeat' split at h
  all_goals cases h
  rename_i a q bc data h1 h2 h3
  exact ⟨a, q, bc, data, rfl, Nat.le_of_not_lt h1, Decidable.not_not.mp h2, Nat.le_of_not_lt h3, rfl⟩

theorem map_eq_error {ε α β : Type} {f : α → β} {x : Except ε α} {e : ε} (h : x.map f = .error e) :
    x = .error e := by
  cases x with
  | error e' => simpa [Except.map] using h
  | ok a => simp [Except.map] at h

theorem map_eq_ok {ε α β : Type} {f : α → β} {x : Except ε α} {b : β} (h : x.map f = .ok b) :
    ∃ a, x = .ok a ∧ f a = b := by
  cases x with
  | error e' => simp [Except.map] at h
  | ok a => exact ⟨a, rfl, by simpa [Except.map] using h⟩

/-- The rule of each function code on the store (R124): the dispatch of PROCESS as a function. -/
def serveRow : FunctionCode → Body → Store → Except Status (Store × List Byte)
  | .rc => serveRC
  | .rdi => serveRDI
  | .rhr => serveRHR
  | .rir => serveRIR
  | .wsc => serveWSC
  | .wsr => serveWSR
  | .wmc => serveWMC
  | .wmr => serveWMR

theorem serveRow_error {k : FunctionCode} {b : Body} {st : Store} {e : Status} (h : serveRow k b st = .error e) :
    e.ofRule := by
  cases k <;> (have h := map_eq_error h) <;>
    first
      | exact readBitBank_error h
      | exact readRegBank_error h
      | exact writeOne_error h
      | exact writeMany_error h

/-- A rule that succeeds gives 1 to 252 body bytes and leaves the read-only banks and every size as they were (R22, R24,
R25). -/
theorem serveRow_ok {k : FunctionCode} {b : Body} {st st' : Store} {body : List Byte}
    (h : serveRow k b st = .ok (st', body)) :
    1 ≤ body.length ∧ body.length ≤ 252 ∧ st'.ir = st.ir ∧ st'.di = st.di ∧
      st'.hr.length = st.hr.length ∧ st'.co.length = st.co.length := by
  have bits : ∀ {bank : List Bool} {bytes : List Byte}, readBitBank bank b = .ok bytes →
      1 ≤ bytes.length ∧ bytes.length ≤ 252 := by
    intro bank bytes h
    obtain ⟨a, q, _, _, h1, h2, rfl⟩ := readBitBank_ok h
    rw [List.length_cons, packBits_length, memRead_length _ _ _ h1]; omega
  have regs : ∀ {bank : List Word} {bytes : List Byte}, readRegBank bank b = .ok bytes →
      1 ≤ bytes.length ∧ bytes.length ≤ 252 := by
    intro bank bytes h
    obtain ⟨a, q, _, _, h1, h2, rfl⟩ := readRegBank_ok h
    rw [List.length_cons, packRegs_length, memRead_length _ _ _ h1]; omega
  cases k <;> obtain ⟨r, h5, hr⟩ := map_eq_ok h <;> cases hr
  · exact ⟨(bits h5).1, (bits h5).2, rfl, rfl, rfl, rfl⟩
  · exact ⟨(bits h5).1, (bits h5).2, rfl, rfl, rfl, rfl⟩
  · exact ⟨(regs h5).1, (regs h5).2, rfl, rfl, rfl, rfl⟩
  · exact ⟨(regs h5).1, (regs h5).2, rfl, rfl, rfl, rfl⟩
  · obtain ⟨a, v, _, _, _, rfl⟩ := writeOne_ok h5
    simp [echoBytes]
  · obtain ⟨a, v, _, _, _, rfl⟩ := writeOne_ok h5
    simp [echoBytes]
  · obtain ⟨a, q, _, _, _, _, _, _, rfl⟩ := writeMany_ok h5
    simp [echoBytes]
  · obtain ⟨a, q, _, _, _, _, _, _, rfl⟩ := writeMany_ok h5
    simp [echoBytes]

/-- Every rule keeps the form of the store. -/
theorem serveRow_wf {k : FunctionCode} {b : Body} {st st' : Store} {body : List Byte}
    (h : serveRow k b st = .ok (st', body)) (hw : Memory.wf st = true) : Memory.wf st' = true := by
  obtain ⟨-, -, h1, h2, h3, h4⟩ := serveRow_ok h
  rw [memory_wf_iff] at *
  rw [h1, h2, h3, h4]; exact hw

end Sys2Proof.Machine
end

