-- ==== Sys2Proof/Laws/Step.lean ====
section
/-!
SUPPORT. Laws/Step.lean: everything a step and PROCESS can do, said once, so that an invariant is a short case analysis.
-/

namespace Sys2Proof.Machine

/-- What the decoder accepts is what the command resolves to, and nothing was wrong with the command. -/
theorem decode_eq_ok_iff {c : Command} {i : Instr} : decode c = .ok i ↔ rejection? c = none ∧ i = resolve c := by
  unfold decode
  cases rejection? c with
  | none => simp [eq_comm]
  | some r => simp

/-- A step that answers a next state either waited, nothing pending, or ran the oldest command's instruction. -/
theorem step_cases {s t : State} (h : step s = .next t) :
    (s.pending = [] ∧ t = s) ∨
    ∃ c rest, s.pending = c :: rest ∧ rejection? c = none ∧ exec (resolve c) { s with pending := rest } = .next t := by
  unfold step at h
  split at h
  · exact .inl ⟨by assumption, (Host.Outcome.next.inj h).symm⟩
  · rename_i c rest hp
    split at h
    · cases h
    · rename_i i hd
      obtain ⟨hr, rfl⟩ := decode_eq_ok_iff.mp hd
      exact .inr ⟨c, rest, hp, hr, h⟩

/-- A supported REQ row serves its function's rule. -/
theorem exec_reqRow {p : AduParts} {k : FunctionCode} (h : functionCode? p.fc = some k) (s : State) :
    exec (reqRow p) s = s.serve p.unit p.fc (serveRow k (parseBody p.body)) := by
  rw [reqRow, h]
  have := functionCode?_eq_some_iff.mp h
  cases k <;> rw [this] <;> rfl

/-- PROCESS that answers a next state: it had a store, and one of five things happened (R121, R122, R133, a rule's own error,
success). -/
theorem process_cases {req : List Byte} {s t : State} (h : exec (.process req) s = .next t) :
    ∃ st, s.store = some st ∧
      ((req.length < 4 ∧ t = s.emit (.reply .invalidValue [])) ∨
       ∃ p : AduParts, req = p.bytes ∧
        ((crc16 p.covered ≠ p.crc ∧ t = s.emit (.reply .crcError [])) ∨
         (crc16 p.covered = p.crc ∧
          ((functionCode? p.fc = none ∧
              t = s.emit (.reply .unsupportedFunction (s.exceptionAdu p.unit p.fc .unsupportedFunction))) ∨
           ∃ k, functionCode? p.fc = some k ∧
            ((∃ e, serveRow k (parseBody p.body) st = .error e ∧
                t = s.emit (.reply e (s.exceptionAdu p.unit p.fc e))) ∨
             ∃ st' body, serveRow k (parseBody p.body) st = .ok (st', body) ∧
                t = { s with store := some st', out := .reply .ok (sealAdu (p.unit :: p.fc :: body)) }))))) := by
  cases hs : s.store with
  | none => simp [exec, execProcess, hs] at h
  | some st =>
    refine ⟨st, rfl, ?_⟩
    cases hp : splitAdu req with
    | none =>
      simp only [exec, execProcess, hs, hp] at h
      exact .inl ⟨splitAdu_eq_none_iff.mp hp, (Host.Outcome.next.inj h).symm⟩
    | some p =>
      obtain rfl := splitAdu_eq_some_iff.mp hp
      refine .inr ⟨p, rfl, ?_⟩
      by_cases hc : crc16 p.covered = p.crc
      · refine .inr ⟨hc, ?_⟩
        have h' : exec (reqRow p) s = .next t := by
          rw [← h]
          simp only [exec, execProcess, hs, splitAdu_bytes, ne_eq, hc, not_true_eq_false, if_false, reqRow]
          cases functionCode? p.fc with
          | none => rfl
          | some k => cases k <;> rfl
        cases hk : functionCode? p.fc with
        | none =>
          rw [reqRow, hk] at h'
          have h' : s.serve p.unit p.fc (fun _ => .error .unsupportedFunction) = .next t := h'
          obtain ⟨st₂, hs₂, ⟨e, he, rfl⟩ | ⟨st', body, hb, -⟩⟩ := serve_cases h'
          · cases he; exact .inl ⟨rfl, rfl⟩
          · cases hb
        | some k =>
          rw [exec_reqRow hk] at h'
          obtain ⟨st₂, hs₂, hr⟩ := serve_cases h'
          rw [hs] at hs₂; cases hs₂
          exact .inr ⟨k, rfl, hr⟩
      · simp only [exec, execProcess, hs, splitAdu_bytes, ne_eq, hc, not_false_eq_true, if_true] at h
        exact .inl ⟨hc, (Host.Outcome.next.inj h).symm⟩

end Sys2Proof.Machine
end

