-- ==== Sys2Proof/Laws/Units.lean ====
section
/-!
SUPPORT. Laws/Units.lean: what the shared operations of the encoder and the decoder can do, said once.
-/

namespace Sys2Proof.Machine

/-- A request ADU has four bytes, the tail and two CRC bytes (R101, R111). -/
@[simp] theorem requestAdu_length (unit fc : Byte) (address : Word) (tail : List Byte) :
    (requestAdu unit fc address tail).length = tail.length + 6 := by
  simp [requestAdu, Nat.add_comm 2]

/-- A multiple write raises INVALID_VALUE without a byte, or delivers the ADU with `bc` at most 247 (R108, R109, R113). -/
theorem encodeMultiple_cases (s : State) (unit fc : Byte) (address quantity : Word) (p : Payload) (bc : Nat) :
    s.encodeMultiple unit fc address quantity p bc = s.emit (.reply .invalidValue []) ∨
    (p.present = true ∧ p.len.toNat = bc ∧ bc ≤ 247 ∧
      s.encodeMultiple unit fc address quantity p bc
        = s.encoded unit fc address (wordBytes quantity ++ BitVec.ofNat 8 bc :: p.bytes.take bc)) := by
  unfold State.encodeMultiple
  by_cases h1 : p.present = false
  · exact .inl (by rw [if_pos h1]; rfl)
  by_cases h2 : p.len.toNat ≠ bc
  · exact .inl (by rw [if_neg h1, if_pos h2]; rfl)
  by_cases h3 : 256 < 9 + bc
  · exact .inl (by rw [if_neg h1, if_neg h2, if_pos h3]; rfl)
  · exact .inr ⟨by simpa using h1, Decidable.not_not.mp h2, by omega, by rw [if_neg h1, if_neg h2, if_neg h3]⟩

/-- The data bytes of a response lie inside its body, after the byte count (R173). -/
theorem dataArea_length_le (body : List Byte) : (dataArea body).length ≤ body.length - 1 := by
  cases body with
  | nil => rfl
  | cons bc data => simp only [dataArea]; split <;> simp

/-- Eight values for each data byte (R164). -/
@[simp] theorem bitValues_length (body : List Byte) : (bitValues body).length = 8 * (dataArea body).length := by
  simp [bitValues]

/-- One value for each pair of data bytes (R166). -/
@[simp] theorem regValues_length (body : List Byte) : (regValues body).length = (dataArea body).length / 2 := by
  simp [regValues]

/-- An ADU of a supported function code decodes by that code's row (R160). -/
theorem exec_rspRow (p : AduParts) (k : FunctionCode) (s : State) (h : p.fc = k.byte) :
    exec (rspRow p) s = .next
      (match k with
      | .rc | .rdi => s.decodedValues p.unit p.fc p.crc (bitValues p.body)
      | .rhr | .rir => s.decodedValues p.unit p.fc p.crc (regValues p.body)
      | .wsc | .wsr | .wmc | .wmr => s.acknowledged p.unit p.fc p.crc (parseBody p.body)) := by
  obtain ⟨unit, fc, body, crc⟩ := p
  simp only at h
  subst h
  simp only [rspRow, k.byte_bit7, functionCode?_byte]
  cases k <;> rfl

end Sys2Proof.Machine
end

