-- ==== Sys2Proof/Tests/Slice0.lean ====
section
/-!
SUPPORT. Tests/Slice0.lean: the model's own tests. Every expected result is taken from spec/95_test_vectors.md or worked out by
hand from the encodings of spec/30_encoding.md; each test is one step or one decoding. The theorems named witness_ show
that the hypotheses of an obligation can be met, one clause after another, at the values where clauses meet.
-/

namespace Sys2Proof.Tests

open Sys2Proof.Machine

set_option Elab.async false

/-! ## Helpers -/

/-- Bytes written as numbers. -/
def hex (bytes : List Nat) : List Byte := bytes.map fun n => BitVec.ofNat 8 n

/-- The state a step answers, if it answers one. -/
def nextOf : Host.Outcome State Fault Refusal → Option State
  | .next t => some t
  | .fault _ => none
  | .refused _ => none

/-- The outputs a step leaves. -/
def outOf (o : Host.Outcome State Fault Refusal) : Option Output := (nextOf o).map State.out

/-- The store a step leaves. -/
def storeOf (o : Host.Outcome State Fault Refusal) : Option Store := (nextOf o).bind State.store

/-- The refusal a step answers, if it answers one. -/
def refusalOf : Host.Outcome State Fault Refusal → Option Refusal
  | .next _ => none
  | .fault _ => none
  | .refused r => some r

theorem eq_next_of_nextOf {o : Host.Outcome State Fault Refusal} {t : State} (h : nextOf o = some t) : o = .next t := by
  cases o with
  | next t' => exact congrArg _ (Option.some.inj h)
  | fault _ => cases h
  | refused _ => cases h

/-- The store of spec/95_test_vectors.md: sizes 100, all zero. -/
def zero100 : Store where
  hr := List.replicate 100 0x0000#16
  ir := List.replicate 100 0x0000#16
  co := List.replicate 100 false
  di := List.replicate 100 false

/-- The bits 1,0,1,1,0,0,1,1,1,0 of worked example L1-2. -/
def tenBits : List Bool := [true, false, true, true, false, false, true, true, true, false]

/-- The start of sections 4 and 5: HR[15] = 0x04D2, CO[20..29] and DI[5..14] the ten bits, IR[2..3] = 0xBEEF, 1. -/
def store100 : Store where
  hr := memWrite zero100.hr 15 [0x04D2#16]
  ir := memWrite zero100.ir 2 [0xBEEF#16, 0x0001#16]
  co := memWrite zero100.co 20 tenBits
  di := memWrite zero100.di 5 tenBits

/-- A block with a store and no command pending. -/
def block (st : Store) : State where
  store := some st
  excAduEn := false
  excCode := Config.excCode
  pending := []
  out := .none

/-- The block with one command presented. -/
def given (st : Store) (c : Command) : State := (block st).present c

/-- The block with the exception-ADU option on. -/
def withExc (st : Store) : State := { block st with excAduEn := true }

/-- A descriptor without a payload, unit 1. -/
def plain (fc : Byte) (address quantity : Word) : Descriptor :=
  { unit := 0x01#8, fc := fc, address := address, quantity := quantity, payload := Payload.absent }

/-- A descriptor with a payload, unit 1. -/
def loaded (fc : Byte) (address quantity : Word) (bytes : List Byte) : Descriptor :=
  { plain fc address quantity with payload := { present := true, len := BitVec.ofNat 16 bytes.length, bytes := bytes } }

/-! ## Ill-formed terms are refused -/

/-- An ADU of 257 bytes is no operand of PROCESS or DECODE (R35); one of 256 is. -/
theorem test_wf_adu_capacity :
    (Instr.process (List.replicate 257 0x00#8)).wf = false ∧ (Instr.decode (List.replicate 257 0x00#8)).wf = false ∧
    (Instr.process (List.replicate 256 0x00#8)).wf = true ∧ (Instr.decode (List.replicate 256 0x00#8)).wf = true := by
  decide +kernel

/-- A multiple write whose payload lacks bytes it would copy, by ENCODE or by row (R79). -/
theorem test_wf_payload :
    (Instr.encode { loaded 0x0F#8 0x0014#16 0x000A#16 [0xCD#8] with payload := ⟨true, 0x0002#16, [0xCD#8]⟩ }).wf = false ∧
    (Instr.encWMC 0x01#8 0x0014#16 0x000A#16 ⟨true, 0x0002#16, [0xCD#8]⟩).wf = false ∧
    (Instr.encWMR 0x01#8 0x0014#16 0x0001#16 ⟨true, 0x0002#16, [0xCD#8]⟩).wf = false ∧
    (Instr.encWMR 0x01#8 0x0014#16 0x0001#16 ⟨true, 0x0002#16, [0xCD#8, 0x01#8]⟩).wf = true := by decide

/-- A bank of 65537 elements (R10). -/
theorem test_wf_bank : Memory.wf { zero100 with co := List.replicate 65537 false } = false := by
  rw [← Bool.not_eq_true, memory_wf_iff]
  intro h
  have h65537 := h.2.2.1
  rw [List.length_replicate] at h65537
  omega

/-- A short body of four bytes, and a body that makes an ADU of 257 bytes (R60, R35). -/
theorem test_wf_body :
    (Instr.reqRC 0x01#8 (.short (hex [0, 0, 0, 0]))).wf = false ∧
    (Instr.reqWMC 0x01#8 (.fields 0x0000#16 0x0000#16 (List.replicate 249 0x00#8))).wf = false ∧
    (Instr.reqWMC 0x01#8 (.fields 0x0000#16 0x0000#16 (List.replicate 248 0x00#8))).wf = true ∧
    (Instr.rspRC 0x01#8 (List.replicate 253 0x00#8) 0x0000#16).wf = false ∧
    (Instr.rspWMR 0x01#8 (.short (hex [0, 0, 0, 0])) 0x0000#16).wf = false := by decide +kernel

/-- The function code of a catch-all row (R78, R163). -/
theorem test_wf_function_code :
    (Instr.encOther 0x01#8 0x10#8 0x0000#16).wf = false ∧ (Instr.reqOther 0x01#8 0x06#8 []).wf = false ∧
    (Instr.rspOther 0x01#8 0x83#8 [] 0x0000#16).wf = false ∧ (Instr.rspOther 0x01#8 0x01#8 [] 0x0000#16).wf = false ∧
    (Instr.rspEXC 0x01#8 0x07#8 [] 0x0000#16).wf = false ∧ (Instr.rspEXC 0x01#8 0x80#8 [] 0x0000#16).wf = true := by decide

/-! ## Decoding, on words written out from the formats of spec/30_encoding.md -/

/-- The commands themselves, and the requests and responses that reach no row. -/
theorem test_decode_commands :
    decode (.crc16 (hex [0x80])) = .ok (.crc16 (hex [0x80])) ∧
    decode (.reset zero100) = .ok (.reset zero100) ∧
    decode (.process (hex [0x01, 0x03, 0x00])) = .ok (.process (hex [0x01, 0x03, 0x00])) ∧
    decode (.process (hex [0x01, 0x06, 0x00, 0x0F, 0x00, 0x01, 0x78, 0x08]))
      = .ok (.process (hex [0x01, 0x06, 0x00, 0x0F, 0x00, 0x01, 0x78, 0x08])) ∧
    decode (.decode (hex [0x01, 0x03])) = .ok (.decode (hex [0x01, 0x03])) := by decide +kernel

/-- Each ENC row from a descriptor of its function code. -/
theorem test_decode_enc :
    decode (.encode (plain 0x01#8 0x0014#16 0x000A#16)) = .ok (.encRC 0x01#8 0x0014#16 0x000A#16) ∧
    decode (.encode (plain 0x02#8 0x0000#16 0x0008#16)) = .ok (.encRDI 0x01#8 0x0000#16 0x0008#16) ∧
    decode (.encode (plain 0x03#8 0x000F#16 0x0001#16)) = .ok (.encRHR 0x01#8 0x000F#16 0x0001#16) ∧
    decode (.encode (plain 0x04#8 0x0000#16 0x0002#16)) = .ok (.encRIR 0x01#8 0x0000#16 0x0002#16) ∧
    decode (.encode (plain 0x05#8 0x0007#16 0x1234#16)) = .ok (.encWSC 0x01#8 0x0007#16 0x1234#16) ∧
    decode (.encode (plain 0x06#8 0x000F#16 0x04D2#16)) = .ok (.encWSR 0x01#8 0x000F#16 0x04D2#16) ∧
    decode (.encode (loaded 0x0F#8 0x0014#16 0x000A#16 (hex [0xCD, 0x01])))
      = .ok (.encWMC 0x01#8 0x0014#16 0x000A#16 ⟨true, 0x0002#16, hex [0xCD, 0x01]⟩) ∧
    decode (.encode (loaded 0x10#8 0x000A#16 0x0001#16 (hex [0x00, 0x0A])))
      = .ok (.encWMR 0x01#8 0x000A#16 0x0001#16 ⟨true, 0x0002#16, hex [0x00, 0x0A]⟩) ∧
    decode (.encode (plain 0x2B#8 0x1234#16 0x5678#16)) = .ok (.encOther 0x01#8 0x2B#8 0x1234#16) := by decide

/-- Each REQ row from a request ADU with a right CRC. -/
theorem test_decode_req :
    decode (.process (hex [0x01, 0x01, 0x00, 0x14, 0x00, 0x0A, 0xFC, 0x09]))
      = .ok (.reqRC 0x01#8 (.fields 0x0014#16 0x000A#16 [])) ∧
    decode (.process (hex [0x11, 0x02, 0x00, 0x05, 0x00, 0x0A, 0xEA, 0x9C]))
      = .ok (.reqRDI 0x11#8 (.fields 0x0005#16 0x000A#16 [])) ∧
    decode (.process (hex [0x01, 0x03, 0x00, 0x0F, 0x00, 0x01, 0xAA, 0xBB, 0x89, 0xD5]))
      = .ok (.reqRHR 0x01#8 (.fields 0x000F#16 0x0001#16 (hex [0xAA, 0xBB]))) ∧
    decode (.process (hex [0x01, 0x03, 0x00, 0x0F, 0xB1, 0xDC]))
      = .ok (.reqRHR 0x01#8 (.short (hex [0x00, 0x0F]))) ∧
    decode (.process (hex [0x11, 0x04, 0x00, 0x02, 0x00, 0x02, 0xD2, 0x9B]))
      = .ok (.reqRIR 0x11#8 (.fields 0x0002#16 0x0002#16 [])) ∧
    decode (.process (hex [0x01, 0x05, 0x00, 0x03, 0xFF, 0x00, 0x7C, 0x3A]))
      = .ok (.reqWSC 0x01#8 (.fields 0x0003#16 0xFF00#16 [])) ∧
    decode (.process (hex [0x01, 0x06, 0x00, 0x0F, 0x04, 0xD2, 0x3B, 0x54]))
      = .ok (.reqWSR 0x01#8 (.fields 0x000F#16 0x04D2#16 [])) ∧
    decode (.process (hex [0x01, 0x0F, 0x00, 0x14, 0x00, 0x0A, 0x02, 0xCD, 0x01, 0x73, 0x7C]))
      = .ok (.reqWMC 0x01#8 (.fields 0x0014#16 0x000A#16 (hex [0x02, 0xCD, 0x01]))) ∧
    decode (.process (hex [0x01, 0x10, 0x00, 0x00, 0x00, 0x00, 0x00, 0x09, 0x50]))
      = .ok (.reqWMR 0x01#8 (.fields 0x0000#16 0x0000#16 (hex [0x00]))) ∧
    decode (.process (hex [0x01, 0x2B, 0x40, 0x3F]))
      = .ok (.reqOther 0x01#8 0x2B#8 []) ∧
    decode (.process (hex [0x01, 0x83, 0x02, 0xC0, 0xF1]))
      = .ok (.reqOther 0x01#8 0x83#8 (hex [0x02])) := by decide +kernel

/-- Each RSP row from a response ADU, the CRC read low byte first and not checked. -/
theorem test_decode_rsp :
    decode (.decode (hex [0x01, 0x83, 0x02, 0xC0, 0xF1]))
      = .ok (.rspEXC 0x01#8 0x83#8 (hex [0x02]) 0xF1C0#16) ∧
    decode (.decode (hex [0x01, 0x01, 0x01, 0x20, 0x50, 0x50]))
      = .ok (.rspRC 0x01#8 (hex [0x01, 0x20]) 0x5050#16) ∧
    decode (.decode (hex [0x11, 0x02, 0x02, 0xCD, 0x01, 0xED, 0x2B]))
      = .ok (.rspRDI 0x11#8 (hex [0x02, 0xCD, 0x01]) 0x2BED#16) ∧
    decode (.decode (hex [0x01, 0x03, 0x02, 0x12, 0x34, 0x00, 0x00]))
      = .ok (.rspRHR 0x01#8 (hex [0x02, 0x12, 0x34]) 0x0000#16) ∧
    decode (.decode (hex [0x11, 0x04, 0x04, 0xBE, 0xEF, 0x00, 0x01, 0x3E, 0x58]))
      = .ok (.rspRIR 0x11#8 (hex [0x04, 0xBE, 0xEF, 0x00, 0x01]) 0x583E#16) ∧
    decode (.decode (hex [0x01, 0x05, 0x00, 0x00]))
      = .ok (.rspWSC 0x01#8 (.short []) 0x0000#16) ∧
    decode (.decode (hex [0x01, 0x06, 0x00, 0x0F, 0x04, 0xD2, 0x3B, 0x54]))
      = .ok (.rspWSR 0x01#8 (.fields 0x000F#16 0x04D2#16 []) 0x543B#16) ∧
    decode (.decode (hex [0x01, 0x0F, 0x00, 0x14, 0x00, 0x0A, 0x95, 0xC8]))
      = .ok (.rspWMC 0x01#8 (.fields 0x0014#16 0x000A#16 []) 0xC895#16) ∧
    decode (.decode (hex [0x01, 0x10, 0x00, 0x0A, 0x00, 0x03, 0xA0, 0x0A]))
      = .ok (.rspWMR 0x01#8 (.fields 0x000A#16 0x0003#16 []) 0x0AA0#16) ∧
    decode (.decode (hex [0x01, 0x07, 0x00, 0x00, 0xB0, 0x19]))
      = .ok (.rspOther 0x01#8 0x07#8 (hex [0x00, 0x00]) 0x19B0#16) := by decide +kernel

/-- The encoder writes the same ADUs. -/
theorem test_encode :
    encode (.reqWMC 0x01#8 (.fields 0x0014#16 0x000A#16 (hex [0x02, 0xCD, 0x01])))
      = .process (hex [0x01, 0x0F, 0x00, 0x14, 0x00, 0x0A, 0x02, 0xCD, 0x01, 0x73, 0x7C]) ∧
    encode (.rspWSR 0x01#8 (.fields 0x000F#16 0x04D2#16 []) 0x543B#16)
      = .decode (hex [0x01, 0x06, 0x00, 0x0F, 0x04, 0xD2, 0x3B, 0x54]) ∧
    encode (.encRC 0x01#8 0x0014#16 0x000A#16) = .encode (plain 0x01#8 0x0014#16 0x000A#16) := by decide +kernel

/-- A word of the opcode table decodes to the response row of its function code, and a step runs it (log entry 6). -/
theorem test_table_word :
    decodeTableWord 8 0x03 = some (.rspRHR 0x00#8 (hex [0, 0, 0, 0]) 0x0000#16) ∧
    decodeTableWord 8 0x80 = some (.rspEXC 0x00#8 0x80#8 (hex [0, 0, 0, 0]) 0x0000#16) ∧
    decodeTableWord 8 0x100 = none ∧
    outOf (step ((block zero100).withFetchWord 8 0x05))
      = some (.decoded ⟨[], some ⟨0x00#8, 0x05#8, 0x0000#16⟩, none, some ⟨0x0000#16, 0x0000#16⟩⟩) := by decide +kernel

/-- The same at reset, whatever the parameters are. -/
theorem test_table_word_at_reset :
    outOf (step (State.reset.withFetchWord 8 0x81))
      = some (.decoded ⟨[], some ⟨0x00#8, 0x81#8, 0x0000#16⟩, some 0x00#8, none⟩) := rfl

/-! ## One step of each command and row (spec/95_test_vectors.md) -/

/-- Section 2: the low byte of the accumulator takes the byte, eight rounds. -/
theorem test_crc16 :
    outOf (step (given zero100 (.crc16 (hex [0x11, 0x03, 0x00, 0x6B, 0x00, 0x03]))))
      = some (.crc 0x8776#16) := by decide +kernel

/-- Section 2: residue of the empty message (R95). -/
theorem test_crc16_residue :
    outOf (step (given zero100 (.crc16 (hex [0xFF, 0xFF]))))
      = some (.crc 0x0000#16) := by decide +kernel

/-- Section 3. -/
theorem test_enc_rc :
    outOf (step (given zero100 (.encode (plain 0x01#8 0x0014#16 0x000A#16))))
      = some (.reply .ok (hex [0x01, 0x01, 0x00, 0x14, 0x00, 0x0A, 0xFC, 0x09])) := by decide +kernel

/-- Section 3. -/
theorem test_enc_rdi :
    outOf (step (given zero100 (.encode (plain 0x02#8 0x0000#16 0x0008#16))))
      = some (.reply .ok (hex [0x01, 0x02, 0x00, 0x00, 0x00, 0x08, 0x79, 0xCC])) := by decide +kernel

/-- Section 3: no range knowledge in the encoder. -/
theorem test_enc_rhr :
    outOf (step (given zero100 (.encode ({ plain 0x03#8 0xFFFF#16 0xFFFF#16 with unit := 0xFF#8 }))))
      = some (.reply .ok (hex [0xFF, 0x03, 0xFF, 0xFF, 0xFF, 0xFF, 0x51, 0x80])) := by decide +kernel

/-- Section 3. -/
theorem test_enc_rir :
    outOf (step (given zero100 (.encode (plain 0x04#8 0x0000#16 0x0002#16))))
      = some (.reply .ok (hex [0x01, 0x04, 0x00, 0x00, 0x00, 0x02, 0x71, 0xCB])) := by decide +kernel

/-- Section 3: any nonzero value is ON. -/
theorem test_enc_wsc_on :
    outOf (step (given zero100 (.encode (plain 0x05#8 0x0007#16 0x1234#16))))
      = some (.reply .ok (hex [0x01, 0x05, 0x00, 0x07, 0xFF, 0x00, 0x3D, 0xFB])) := by decide +kernel

/-- Section 3. -/
theorem test_enc_wsc_off :
    outOf (step (given zero100 (.encode (plain 0x05#8 0x0007#16 0x0000#16))))
      = some (.reply .ok (hex [0x01, 0x05, 0x00, 0x07, 0x00, 0x00, 0x7C, 0x0B])) := by decide +kernel

/-- Section 3: unit id 0, the raw value. -/
theorem test_enc_wsr :
    outOf (step (given zero100 (.encode ({ plain 0x06#8 0x0000#16 0xFFFF#16 with unit := 0x00#8 }))))
      = some (.reply .ok (hex [0x00, 0x06, 0x00, 0x00, 0xFF, 0xFF, 0x89, 0xAB])) := by decide +kernel

/-- Section 3: padding bits copied unchanged. -/
theorem test_enc_wmc :
    outOf (step (given zero100 (.encode (loaded 0x0F#8 0x0014#16 0x000A#16 (hex [0xCD, 0xFF])))))
      = some (.reply .ok (hex [0x01, 0x0F, 0x00, 0x14, 0x00, 0x0A, 0x02, 0xCD, 0xFF, 0xF2, 0xFC])) := by decide +kernel

/-- Section 3: length 1, needs 2. -/
theorem test_enc_wmc_length :
    outOf (step (given zero100 (.encode (loaded 0x0F#8 0x0014#16 0x000A#16 (hex [0xCD])))))
      = some (.reply .invalidValue []) := by decide +kernel

/-- Section 3. -/
theorem test_enc_wmr :
    outOf (step (given zero100 (.encode (loaded 0x10#8 0x000A#16 0x0003#16 (hex [0x00, 0x0A, 0x00, 0x0B, 0x00, 0x0C])))))
      = some (.reply .ok (hex [0x01, 0x10, 0x00, 0x0A, 0x00, 0x03, 0x06, 0x00, 0x0A, 0x00, 0x0B, 0x00, 0x0C, 0x2F, 0x66])) := by decide +kernel

/-- Section 3: length 7, needs 6. -/
theorem test_enc_wmr_length :
    outOf (step (given zero100 (.encode (loaded 0x10#8 0x000A#16 0x0003#16 (hex [0x00, 0x0A, 0x00, 0x0B, 0x00, 0x0C, 0x00])))))
      = some (.reply .invalidValue []) := by decide +kernel

/-- Section 3: 6 bytes, the quantity ignored (R110). -/
theorem test_enc_other :
    outOf (step (given zero100 (.encode (plain 0x07#8 0x1234#16 0x5678#16))))
      = some (.reply .ok (hex [0x01, 0x07, 0x12, 0x34, 0xBD, 0x6E])) := by decide +kernel

/-- Section 4: bits low first; the store is unchanged. -/
theorem test_req_rc :
    outOf (step (given store100 (.process (hex [0x01, 0x01, 0x00, 0x14, 0x00, 0x0A, 0xFC, 0x09]))))
      = some (.reply .ok (hex [0x01, 0x01, 0x02, 0xCD, 0x01, 0x2C, 0xAC])) ∧
    storeOf (step (given store100 (.process (hex [0x01, 0x01, 0x00, 0x14, 0x00, 0x0A, 0xFC, 0x09]))))
      = some store100 := by decide +kernel

/-- Section 4: quantity 0. -/
theorem test_req_rc_none :
    outOf (step (given store100 (.process (hex [0x01, 0x01, 0x00, 0x00, 0x00, 0x00, 0x3C, 0x0A]))))
      = some (.reply .ok (hex [0x01, 0x01, 0x00, 0x21, 0x90])) := by decide +kernel

/-- Section 4. -/
theorem test_req_rdi :
    outOf (step (given store100 (.process (hex [0x11, 0x02, 0x00, 0x05, 0x00, 0x0A, 0xEA, 0x9C]))))
      = some (.reply .ok (hex [0x11, 0x02, 0x02, 0xCD, 0x01, 0xED, 0x2B])) ∧
    storeOf (step (given store100 (.process (hex [0x11, 0x02, 0x00, 0x05, 0x00, 0x0A, 0xEA, 0x9C]))))
      = some store100 := by decide +kernel

/-- Section 4: two surplus bytes ignored. -/
theorem test_req_rhr :
    outOf (step (given store100 (.process (hex [0x01, 0x03, 0x00, 0x0F, 0x00, 0x01, 0xAA, 0xBB, 0x89, 0xD5]))))
      = some (.reply .ok (hex [0x01, 0x03, 0x02, 0x04, 0xD2, 0x3A, 0xD9])) ∧
    storeOf (step (given store100 (.process (hex [0x01, 0x03, 0x00, 0x0F, 0x00, 0x01, 0xAA, 0xBB, 0x89, 0xD5]))))
      = some store100 := by decide +kernel

/-- Section 5: 99 + 2. -/
theorem test_req_rhr_range :
    outOf (step (given store100 (.process (hex [0x01, 0x03, 0x00, 0x63, 0x00, 0x02, 0x34, 0x15]))))
      = some (.reply .addressOutOfRange []) ∧
    storeOf (step (given store100 (.process (hex [0x01, 0x03, 0x00, 0x63, 0x00, 0x02, 0x34, 0x15]))))
      = some store100 := by decide +kernel

/-- Section 4. -/
theorem test_req_rir :
    outOf (step (given store100 (.process (hex [0x11, 0x04, 0x00, 0x02, 0x00, 0x02, 0xD2, 0x9B]))))
      = some (.reply .ok (hex [0x11, 0x04, 0x04, 0xBE, 0xEF, 0x00, 0x01, 0x3E, 0x58])) ∧
    storeOf (step (given store100 (.process (hex [0x11, 0x04, 0x00, 0x02, 0x00, 0x02, 0xD2, 0x9B]))))
      = some store100 := by decide +kernel

/-- Section 4. -/
theorem test_req_wsc :
    outOf (step (given store100 (.process (hex [0x01, 0x05, 0x00, 0x03, 0xFF, 0x00, 0x7C, 0x3A]))))
      = some (.reply .ok (hex [0x01, 0x05, 0x00, 0x03, 0xFF, 0x00, 0x7C, 0x3A])) ∧
    storeOf (step (given store100 (.process (hex [0x01, 0x05, 0x00, 0x03, 0xFF, 0x00, 0x7C, 0x3A]))))
      = some { store100 with co := memWrite store100.co 3 [true] } := by decide +kernel

/-- Section 4: an odd value clears, echoed as sent. -/
theorem test_req_wsc_odd :
    outOf (step (given { store100 with co := memWrite store100.co 3 [true] } (.process (hex [0x01, 0x05, 0x00, 0x03, 0xFF, 0x01, 0xBD, 0xFA]))))
      = some (.reply .ok (hex [0x01, 0x05, 0x00, 0x03, 0xFF, 0x01, 0xBD, 0xFA])) ∧
    storeOf (step (given { store100 with co := memWrite store100.co 3 [true] } (.process (hex [0x01, 0x05, 0x00, 0x03, 0xFF, 0x01, 0xBD, 0xFA]))))
      = some store100 := by decide +kernel

/-- Section 4. -/
theorem test_req_wsr :
    outOf (step (given zero100 (.process (hex [0x01, 0x06, 0x00, 0x0F, 0x04, 0xD2, 0x3B, 0x54]))))
      = some (.reply .ok (hex [0x01, 0x06, 0x00, 0x0F, 0x04, 0xD2, 0x3B, 0x54])) ∧
    storeOf (step (given zero100 (.process (hex [0x01, 0x06, 0x00, 0x0F, 0x04, 0xD2, 0x3B, 0x54]))))
      = some { zero100 with hr := memWrite zero100.hr 15 [0x04D2#16] } := by decide +kernel

/-- Section 5: address = size. -/
theorem test_req_wsr_range :
    outOf (step (given store100 (.process (hex [0x01, 0x06, 0x00, 0x64, 0x00, 0x01, 0x09, 0xD5]))))
      = some (.reply .addressOutOfRange []) ∧
    storeOf (step (given store100 (.process (hex [0x01, 0x06, 0x00, 0x64, 0x00, 0x01, 0x09, 0xD5]))))
      = some store100 := by decide +kernel

/-- Section 4: the padding bits are ones and are ignored. -/
theorem test_req_wmc :
    outOf (step (given zero100 (.process (hex [0x01, 0x0F, 0x00, 0x14, 0x00, 0x0A, 0x02, 0xCD, 0xFF, 0xF2, 0xFC]))))
      = some (.reply .ok (hex [0x01, 0x0F, 0x00, 0x14, 0x00, 0x0A, 0x95, 0xC8])) ∧
    storeOf (step (given zero100 (.process (hex [0x01, 0x0F, 0x00, 0x14, 0x00, 0x0A, 0x02, 0xCD, 0xFF, 0xF2, 0xFC]))))
      = some { zero100 with co := memWrite zero100.co 20 [true, false, true, true, false, false, true, true, true, true] } := by decide +kernel

/-- Section 5: range before byte count. -/
theorem test_req_wmc_order :
    outOf (step (given store100 (.process (hex [0x01, 0x0F, 0x00, 0x5F, 0x00, 0x0A, 0x03, 0xCD, 0x01, 0x00, 0xC7, 0x1D]))))
      = some (.reply .addressOutOfRange []) ∧
    storeOf (step (given store100 (.process (hex [0x01, 0x0F, 0x00, 0x5F, 0x00, 0x0A, 0x03, 0xCD, 0x01, 0x00, 0xC7, 0x1D]))))
      = some store100 := by decide +kernel

/-- Section 4. -/
theorem test_req_wmr :
    outOf (step (given zero100 (.process (hex [0x01, 0x10, 0x00, 0x0A, 0x00, 0x03, 0x06, 0x00, 0x0A, 0x00, 0x0B, 0x00, 0x0C, 0x2F, 0x66]))))
      = some (.reply .ok (hex [0x01, 0x10, 0x00, 0x0A, 0x00, 0x03, 0xA0, 0x0A])) ∧
    storeOf (step (given zero100 (.process (hex [0x01, 0x10, 0x00, 0x0A, 0x00, 0x03, 0x06, 0x00, 0x0A, 0x00, 0x0B, 0x00, 0x0C, 0x2F, 0x66]))))
      = some { zero100 with hr := memWrite zero100.hr 10 [0x000A#16, 0x000B#16, 0x000C#16] } := by decide +kernel

/-- Section 5: byte count 6 but only 4 data bytes. -/
theorem test_req_wmr_short :
    outOf (step (given store100 (.process (hex [0x01, 0x10, 0x00, 0x0A, 0x00, 0x03, 0x06, 0x00, 0x0A, 0x00, 0x0B, 0x6A, 0x04]))))
      = some (.reply .invalidValue []) ∧
    storeOf (step (given store100 (.process (hex [0x01, 0x10, 0x00, 0x0A, 0x00, 0x03, 0x06, 0x00, 0x0A, 0x00, 0x0B, 0x6A, 0x04]))))
      = some store100 := by decide +kernel

/-- Section 5: an unsupported code in a 4-byte request. -/
theorem test_req_other :
    outOf (step (given store100 (.process (hex [0x01, 0x2B, 0x40, 0x3F]))))
      = some (.reply .unsupportedFunction []) ∧
    storeOf (step (given store100 (.process (hex [0x01, 0x2B, 0x40, 0x3F]))))
      = some store100 := by decide +kernel

/-- Section 5: length 3. -/
theorem test_process_length :
    outOf (step (given store100 (.process (hex [0x01, 0x03, 0x00]))))
      = some (.reply .invalidValue []) ∧
    storeOf (step (given store100 (.process (hex [0x01, 0x03, 0x00]))))
      = some store100 := by decide +kernel

/-- Section 5: bad CRC and unsupported code. -/
theorem test_process_crc :
    outOf (step (given store100 (.process (hex [0x01, 0x07, 0x00, 0x00, 0x00, 0x00, 0xB4, 0x0B]))))
      = some (.reply .crcError []) ∧
    storeOf (step (given store100 (.process (hex [0x01, 0x07, 0x00, 0x00, 0x00, 0x00, 0xB4, 0x0B]))))
      = some store100 := by decide +kernel

/-- Section 6: L = 2, nothing valid. -/
theorem test_decode_short :
    outOf (step (given zero100 (.decode (hex [0x01, 0x03]))))
      = some (.decoded ⟨[], none, none, none⟩) := by decide +kernel

/-- Section 6. -/
theorem test_rsp_exc :
    outOf (step (given zero100 (.decode (hex [0x01, 0x83, 0x02, 0xC0, 0xF1]))))
      = some (.decoded ⟨[], some ⟨0x01#8, 0x83#8, 0xF1C0#16⟩, some 0x02#8, none⟩) := by decide +kernel

/-- Section 6: any code accepted. -/
theorem test_rsp_exc_any :
    outOf (step (given zero100 (.decode (hex [0x01, 0xFF, 0x7A, 0x00, 0x00]))))
      = some (.decoded ⟨[], some ⟨0x01#8, 0xFF#8, 0x0000#16⟩, some 0x7A#8, none⟩) := by decide +kernel

/-- Section 6: one value per bit slot, not trimmed. -/
theorem test_rsp_rc :
    outOf (step (given zero100 (.decode (hex [0x01, 0x01, 0x02, 0xCD, 0x01, 0x2C, 0xAC]))))
      = some (.decoded ⟨[1, 0, 1, 1, 0, 0, 1, 1, 1, 0, 0, 0, 0, 0, 0, 0], some ⟨0x01#8, 0x01#8, 0xAC2C#16⟩, none, none⟩) := by decide +kernel

/-- Section 6: byte count 0. -/
theorem test_rsp_rc_none :
    outOf (step (given zero100 (.decode (hex [0x01, 0x01, 0x00, 0x21, 0x90]))))
      = some (.decoded ⟨[], some ⟨0x01#8, 0x01#8, 0x9021#16⟩, none, none⟩) := by decide +kernel

/-- Section 6. -/
theorem test_rsp_rdi :
    outOf (step (given zero100 (.decode (hex [0x11, 0x02, 0x02, 0xCD, 0x01, 0xED, 0x2B]))))
      = some (.decoded ⟨[1, 0, 1, 1, 0, 0, 1, 1, 1, 0, 0, 0, 0, 0, 0, 0], some ⟨0x11#8, 0x02#8, 0x2BED#16⟩, none, none⟩) := by decide +kernel

/-- Section 6: odd byte count 3. -/
theorem test_rsp_rhr :
    outOf (step (given zero100 (.decode (hex [0x01, 0x03, 0x03, 0x04, 0xD2, 0x07, 0x19, 0x2D]))))
      = some (.decoded ⟨[1234], some ⟨0x01#8, 0x03#8, 0x2D19#16⟩, none, none⟩) := by decide +kernel

/-- Section 6: byte count 6 needs L = 11, L is 7. -/
theorem test_rsp_rhr_truncated :
    outOf (step (given zero100 (.decode (hex [0x01, 0x03, 0x06, 0x04, 0xD2, 0x7B, 0x18]))))
      = some (.decoded ⟨[], some ⟨0x01#8, 0x03#8, 0x187B#16⟩, none, none⟩) := by decide +kernel

/-- Section 6. -/
theorem test_rsp_rir :
    outOf (step (given zero100 (.decode (hex [0x11, 0x04, 0x04, 0xBE, 0xEF, 0x00, 0x01, 0x3E, 0x58]))))
      = some (.decoded ⟨[48879, 1], some ⟨0x11#8, 0x04#8, 0x583E#16⟩, none, none⟩) := by decide +kernel

/-- Section 6. -/
theorem test_rsp_wsc :
    outOf (step (given zero100 (.decode (hex [0x01, 0x05, 0x00, 0x03, 0xFF, 0x00, 0x7C, 0x3A]))))
      = some (.decoded ⟨[], some ⟨0x01#8, 0x05#8, 0x3A7C#16⟩, none, some ⟨0x0003#16, 0xFF00#16⟩⟩) := by decide +kernel

/-- Section 6: L = 4. -/
theorem test_rsp_wsc_short :
    outOf (step (given zero100 (.decode (hex [0x01, 0x05, 0x00, 0x00]))))
      = some (.decoded ⟨[], some ⟨0x01#8, 0x05#8, 0x0000#16⟩, none, none⟩) := by decide +kernel

/-- Section 6. -/
theorem test_rsp_wsr :
    outOf (step (given zero100 (.decode (hex [0x01, 0x06, 0x00, 0x0F, 0x04, 0xD2, 0x3B, 0x54]))))
      = some (.decoded ⟨[], some ⟨0x01#8, 0x06#8, 0x543B#16⟩, none, some ⟨0x000F#16, 0x04D2#16⟩⟩) := by decide +kernel

/-- Section 6. -/
theorem test_rsp_wmc :
    outOf (step (given zero100 (.decode (hex [0x01, 0x0F, 0x00, 0x14, 0x00, 0x0A, 0x95, 0xC8]))))
      = some (.decoded ⟨[], some ⟨0x01#8, 0x0F#8, 0xC895#16⟩, none, some ⟨0x0014#16, 0x000A#16⟩⟩) := by decide +kernel

/-- Section 6. -/
theorem test_rsp_wmr :
    outOf (step (given zero100 (.decode (hex [0x01, 0x10, 0x00, 0x0A, 0x00, 0x03, 0xA0, 0x0A]))))
      = some (.decoded ⟨[], some ⟨0x01#8, 0x10#8, 0x0AA0#16⟩, none, some ⟨0x000A#16, 0x0003#16⟩⟩) := by decide +kernel

/-- Section 6: unknown code. -/
theorem test_rsp_other :
    outOf (step (given zero100 (.decode (hex [0x01, 0x07, 0x00, 0x00, 0xB0, 0x19]))))
      = some (.decoded ⟨[], some ⟨0x01#8, 0x07#8, 0x19B0#16⟩, none, none⟩) := by decide +kernel

/-- RESET: the banks hold what it is given, whatever stood there (R210, R213). -/
theorem test_reset : storeOf (step (given store100 (.reset zero100))) = some zero100 := by decide +kernel

/-- Without a store PROCESS is refused, CRC16 is not (R212, R213). -/
theorem test_no_store :
    refusalOf (step (((block zero100).destroyStore).present (.process (hex [0x01, 0x03, 0x00])))) = some .noStore ∧
    outOf (step (((block zero100).destroyStore).present (.crc16 []))) = some (.crc 0xFFFF#16) := by decide +kernel

/-- The host's assignment between commands is the one other way an input register changes (R215). -/
theorem test_assign_store : ((block zero100).assignStore store100).store = some store100 := rfl

/-- The numbers of the status codes (R180). -/
theorem test_status_codes :
    [Status.ok, .crcError, .unsupportedFunction, .addressOutOfRange, .invalidValue].map Status.code = [0, 1, 2, 3, 4] := rfl

/-- `count` is the number of values (R160): worked example L1-3, step 4. -/
theorem test_count : (Decoded.mk [10, 11, 12] none none none).count = 3 := rfl

/-- Section 5, last column: the exception ADU where the option is on; none for a bad CRC or a request of 3 bytes. -/
theorem test_exception_adu :
    outOf (step ((withExc store100).present (.process (hex [0x01, 0x07, 0x00, 0x00, 0x00, 0x00, 0xB4, 0x0A]))))
      = some (.reply .unsupportedFunction (hex [0x01, 0x87, 0x01, 0x82, 0x30])) ∧
    outOf (step ((withExc store100).present (.process (hex [0x01, 0x06, 0x00, 0x64, 0x00, 0x01, 0x09, 0xD5]))))
      = some (.reply .addressOutOfRange (hex [0x01, 0x86, 0x02, 0xC3, 0xA1])) ∧
    outOf (step ((withExc store100).present (.process (hex [0x01, 0x0F, 0x00, 0x14, 0x00, 0x0A, 0x95, 0xC8]))))
      = some (.reply .invalidValue (hex [0x01, 0x8F, 0x03, 0x04, 0x31])) ∧
    outOf (step ((withExc store100).present (.process (hex [0x01, 0x06, 0x00, 0x0F, 0x00, 0x01, 0x78, 0x08]))))
      = some (.reply .crcError []) ∧
    outOf (step ((withExc store100).present (.process (hex [0x01, 0x03, 0x00]))))
      = some (.reply .invalidValue []) := by decide +kernel

/-! ## Witnesses: the hypotheses of the obligations can be met -/

/-- A store with room for the largest reads: 2009 coils and discrete inputs, 126 registers. -/
def wide : Store where
  hr := List.replicate 126 0xFFFF#16
  ir := List.replicate 126 0xFFFF#16
  co := List.replicate 2009 true
  di := List.replicate 2009 true

/-- EncodeQuantityForms: each of the five rows, at the largest address and quantity. -/
theorem witness_EncodeQuantityForms :
    ∀ x ∈ [(0x01#8, Instr.encRC 0xFF#8 0xFFFF#16 0xFFFF#16), (0x02#8, .encRDI 0xFF#8 0xFFFF#16 0xFFFF#16),
        (0x03#8, .encRHR 0xFF#8 0xFFFF#16 0xFFFF#16), (0x04#8, .encRIR 0xFF#8 0xFFFF#16 0xFFFF#16),
        (0x06#8, .encWSR 0xFF#8 0xFFFF#16 0xFFFF#16)],
      ∃ f : Descriptor, f.fc = x.1 ∧
        x ∈ [(0x01#8, Instr.encRC f.unit f.address f.quantity), (0x02#8, .encRDI f.unit f.address f.quantity),
          (0x03#8, .encRHR f.unit f.address f.quantity), (0x04#8, .encRIR f.unit f.address f.quantity),
          (0x06#8, .encWSR f.unit f.address f.quantity)] := by
  intro x hx
  exact ⟨⟨0xFF#8, x.1, 0xFFFF#16, 0xFFFF#16, Payload.absent⟩, rfl, hx⟩

/-- EncodeSingleCoilForm: the value zero, and the least and the greatest nonzero value. -/
theorem witness_EncodeSingleCoilForm :
    (plain 0x05#8 0x0007#16 0x0000#16).fc = 0x05#8 ∧
    outOf (exec (.encode (plain 0x05#8 0x0007#16 0x0000#16)) (block zero100))
      = some (.reply .ok (hex [0x01, 0x05, 0x00, 0x07, 0x00, 0x00, 0x7C, 0x0B])) ∧
    outOf (exec (.encode (plain 0x05#8 0x0007#16 0x0001#16)) (block zero100))
      = some (.reply .ok (hex [0x01, 0x05, 0x00, 0x07, 0xFF, 0x00, 0x3D, 0xFB])) ∧
    outOf (exec (.encode (plain 0x05#8 0x0007#16 0xFFFF#16)) (block zero100))
      = some (.reply .ok (hex [0x01, 0x05, 0x00, 0x07, 0xFF, 0x00, 0x3D, 0xFB])) := by decide +kernel

/-- The length of the ADU a step answers, with its status. -/
def sizeOf (o : Host.Outcome State Fault Refusal) : Option (Status × Nat) :=
  match outOf o with
  | some (.reply e adu) => some (e, adu.length)
  | _ => none

/-- EncodeMultipleWriteForms: both rows; 247 and 248, 246 and 248 payload bytes on either side of the
capacity, an absent payload, a present empty one, one byte too few. -/
theorem witness_EncodeMultipleWriteForms :
    ((0x07B8#16).toNat + 7) / 8 = 247 ∧ ((0x07B9#16).toNat + 7) / 8 = 248 ∧ (0x007B#16).toNat * 2 = 246 ∧
    (loaded 0x0F#8 0x0000#16 0x07B8#16 (List.replicate 247 0xFF#8)).fc = 0x0F#8 ∧
    (loaded 0x10#8 0x0000#16 0x007B#16 (List.replicate 246 0xFF#8)).fc = 0x10#8 ∧
    sizeOf (exec (.encode (loaded 0x0F#8 0x0000#16 0x07B8#16 (List.replicate 247 0xFF#8))) (block zero100)) = some (.ok, 256) ∧
    sizeOf (exec (.encode (loaded 0x0F#8 0x0000#16 0x07B9#16 (List.replicate 248 0xFF#8))) (block zero100))
      = some (.invalidValue, 0) ∧
    sizeOf (exec (.encode (loaded 0x10#8 0x0000#16 0x007B#16 (List.replicate 246 0xFF#8))) (block zero100)) = some (.ok, 255) ∧
    sizeOf (exec (.encode (loaded 0x10#8 0x0000#16 0x007C#16 (List.replicate 248 0xFF#8))) (block zero100))
      = some (.invalidValue, 0) ∧
    sizeOf (exec (.encode (plain 0x0F#8 0x0000#16 0x0000#16)) (block zero100)) = some (.invalidValue, 0) ∧
    sizeOf (exec (.encode (loaded 0x10#8 0x0000#16 0x0000#16 [])) (block zero100)) = some (.ok, 9) ∧
    sizeOf (exec (.encode (loaded 0x10#8 0x0000#16 0x0001#16 [0x00#8])) (block zero100)) = some (.invalidValue, 0) := by
  decide +kernel

/-- EncodeUnsupportedForm, UnsupportedFunctionIsReported: function codes next to the supported ones and at both ends. -/
theorem witness_EncodeUnsupportedForm :
    ∀ fc ∈ [0x00#8, 0x07#8, 0x0E#8, 0x11#8, 0x80#8, 0xFF#8],
      fc ∉ [0x01#8, 0x02#8, 0x03#8, 0x04#8, 0x05#8, 0x06#8, 0x0F#8, 0x10#8] := by decide

/-- EncodeIgnoresPayloadElsewhere: a function code with a payload it ignores. -/
theorem witness_EncodeIgnoresPayloadElsewhere :
    (plain 0x03#8 0x0000#16 0x0001#16).fc ≠ 0x0F#8 ∧ (plain 0x03#8 0x0000#16 0x0001#16).fc ≠ 0x10#8 := by decide

/-- ProcessTestsLengthThenCrc: 3 bytes fail the length test; 4 bytes pass it and reach the CRC test. -/
theorem witness_ProcessTestsLengthThenCrc :
    (block zero100).store = some zero100 ∧ (hex [0x01, 0x03, 0x00]).length < 4 ∧
    hex [0x01, 0x03, 0x00, 0x00] = hex [0x01, 0x03] ++ [0x00#8, 0x00#8] ∧ 2 ≤ (hex [0x01, 0x03]).length ∧
    le16 0x00#8 0x00#8 ≠ crc16 (hex [0x01, 0x03]) := by decide +kernel

/-- ReadBitFunctions: each row; the last coil, one past it, the largest response and one past it, and a short body. -/
theorem witness_ReadBitFunctions :
    (block wide).store = some wide ∧
    (∀ x ∈ [(0x01#8, Instr.reqRC 0x01#8 (.short []), wide.co), (0x02#8, Instr.reqRDI 0x01#8 (.short []), wide.di)],
      x ∈ [(0x01#8, Instr.reqRC 0x01#8 (.short []), wide.co), (0x02#8, Instr.reqRDI 0x01#8 (.short []), wide.di)]) ∧
    sizeOf (exec (.reqRC 0x01#8 (.fields 0x07D8#16 0x0001#16 [])) (block wide)) = some (.ok, 6) ∧
    sizeOf (exec (.reqRC 0x01#8 (.fields 0x07D8#16 0x0002#16 [])) (block wide)) = some (.addressOutOfRange, 0) ∧
    sizeOf (exec (.reqRDI 0x01#8 (.fields 0x0000#16 0x07D8#16 [])) (block wide)) = some (.ok, 256) ∧
    sizeOf (exec (.reqRDI 0x01#8 (.fields 0x0000#16 0x07D9#16 [])) (block wide)) = some (.invalidValue, 0) ∧
    sizeOf (exec (.reqRC 0x01#8 (.short (hex [0, 0, 0]))) (block wide)) = some (.invalidValue, 0) := by decide +kernel

/-- ReadRegisterFunctions, likewise: 125 and 126 registers. -/
theorem witness_ReadRegisterFunctions :
    (block wide).store = some wide ∧
    (∀ x ∈ [(0x03#8, Instr.reqRHR 0x01#8 (.short []), wide.hr), (0x04#8, Instr.reqRIR 0x01#8 (.short []), wide.ir)],
      x ∈ [(0x03#8, Instr.reqRHR 0x01#8 (.short []), wide.hr), (0x04#8, Instr.reqRIR 0x01#8 (.short []), wide.ir)]) ∧
    sizeOf (exec (.reqRHR 0x01#8 (.fields 0x007D#16 0x0001#16 [])) (block wide)) = some (.ok, 7) ∧
    sizeOf (exec (.reqRHR 0x01#8 (.fields 0x007D#16 0x0002#16 [])) (block wide)) = some (.addressOutOfRange, 0) ∧
    sizeOf (exec (.reqRIR 0x01#8 (.fields 0x0000#16 0x007D#16 [])) (block wide)) = some (.ok, 255) ∧
    sizeOf (exec (.reqRIR 0x01#8 (.fields 0x0000#16 0x007E#16 [])) (block wide)) = some (.invalidValue, 0) ∧
    sizeOf (exec (.reqRIR 0x01#8 (.short [])) (block wide)) = some (.invalidValue, 0) := by decide +kernel

/-- WriteSingleCoilFunction, WriteSingleRegisterFunction: the last element, one past it, a short body. -/
theorem witness_WriteSingleFunctions :
    (block zero100).store = some zero100 ∧
    storeOf (exec (.reqWSC 0x01#8 (.fields 0x0063#16 0xFF00#16 [])) (block zero100))
      = some { zero100 with co := List.replicate 99 false ++ [true] } ∧
    sizeOf (exec (.reqWSC 0x01#8 (.fields 0x0064#16 0xFF00#16 [])) (block zero100)) = some (.addressOutOfRange, 0) ∧
    sizeOf (exec (.reqWSC 0x01#8 (.short [])) (block zero100)) = some (.invalidValue, 0) ∧
    storeOf (exec (.reqWSR 0x01#8 (.fields 0x0063#16 0xFFFF#16 [])) (block zero100))
      = some { zero100 with hr := List.replicate 99 0x0000#16 ++ [0xFFFF#16] } ∧
    sizeOf (exec (.reqWSR 0x01#8 (.fields 0x0064#16 0xFFFF#16 [])) (block zero100)) = some (.addressOutOfRange, 0) ∧
    sizeOf (exec (.reqWSR 0x01#8 (.short [])) (block zero100)) = some (.invalidValue, 0) := by decide +kernel

/-- WriteMultipleCoilsFunction: the last two coils; one past; byte count off by one; one data byte missing; quantity 0; no byte
count; a short body. -/
theorem witness_WriteMultipleCoilsFunction :
    (block zero100).store = some zero100 ∧
    storeOf (exec (.reqWMC 0x01#8 (.fields 0x0062#16 0x0002#16 (hex [0x01, 0xFF]))) (block zero100))
      = some { zero100 with co := List.replicate 98 false ++ [true, true] } ∧
    sizeOf (exec (.reqWMC 0x01#8 (.fields 0x0062#16 0x0003#16 (hex [0x02, 0xFF]))) (block zero100))
      = some (.addressOutOfRange, 0) ∧
    sizeOf (exec (.reqWMC 0x01#8 (.fields 0x0000#16 0x0008#16 (hex [0x02, 0xFF, 0xFF]))) (block zero100))
      = some (.invalidValue, 0) ∧
    sizeOf (exec (.reqWMC 0x01#8 (.fields 0x0000#16 0x0009#16 (hex [0x02, 0xFF]))) (block zero100))
      = some (.invalidValue, 0) ∧
    storeOf (exec (.reqWMC 0x01#8 (.fields 0x0064#16 0x0000#16 (hex [0x00]))) (block zero100)) = some zero100 ∧
    sizeOf (exec (.reqWMC 0x01#8 (.fields 0x0000#16 0x0000#16 [])) (block zero100)) = some (.invalidValue, 0) ∧
    sizeOf (exec (.reqWMC 0x01#8 (.short [])) (block zero100)) = some (.invalidValue, 0) := by decide +kernel

/-- WriteMultipleRegistersFunction, likewise. -/
theorem witness_WriteMultipleRegistersFunction :
    (block zero100).store = some zero100 ∧
    storeOf (exec (.reqWMR 0x01#8 (.fields 0x0063#16 0x0001#16 (hex [0x02, 0x12, 0x34]))) (block zero100))
      = some { zero100 with hr := List.replicate 99 0x0000#16 ++ [0x1234#16] } ∧
    sizeOf (exec (.reqWMR 0x01#8 (.fields 0x0063#16 0x0002#16 (hex [0x03, 0x12, 0x34]))) (block zero100))
      = some (.addressOutOfRange, 0) ∧
    sizeOf (exec (.reqWMR 0x01#8 (.fields 0x0000#16 0x0001#16 (hex [0x01, 0x12, 0x34]))) (block zero100))
      = some (.invalidValue, 0) ∧
    sizeOf (exec (.reqWMR 0x01#8 (.fields 0x0000#16 0x0001#16 (hex [0x02, 0x12]))) (block zero100))
      = some (.invalidValue, 0) ∧
    sizeOf (exec (.reqWMR 0x01#8 (.fields 0x0000#16 0x0000#16 [])) (block zero100)) = some (.invalidValue, 0) ∧
    sizeOf (exec (.reqWMR 0x01#8 (.short [])) (block zero100)) = some (.invalidValue, 0) := by decide +kernel

/-- UnsupportedFunctionIsReported: a store, and a code next to a supported one. -/
theorem witness_UnsupportedFunctionIsReported :
    (block zero100).store = some zero100 ∧
    0x07#8 ∉ [0x01#8, 0x02#8, 0x03#8, 0x04#8, 0x05#8, 0x06#8, 0x0F#8, 0x10#8] := by decide +kernel

/-- ProcessReportsTheFirstFailedTest: a store; and each test of R144 is the first to fail on some request of section 5. -/
theorem witness_ProcessReportsTheFirstFailedTest :
    (block store100).store = some store100 ∧
    ([hex [0x01, 0x03, 0x00], hex [0x01, 0x06, 0x00, 0x0F, 0x00, 0x01, 0x78, 0x08], hex [0x01, 0x2B, 0x40, 0x3F],
      hex [0x01, 0x03, 0x00, 0x0F, 0xB1, 0xDC], hex [0x01, 0x0F, 0x00, 0x14, 0x00, 0x0A, 0x95, 0xC8],
      hex [0x01, 0x03, 0x00, 0x65, 0x00, 0x00, 0x55, 0xD5], hex [0x01, 0x06, 0x00, 0x64, 0x00, 0x01, 0x09, 0xD5],
      hex [0x01, 0x0F, 0x00, 0x14, 0x00, 0x0A, 0x03, 0xCD, 0x01, 0x00, 0x3C, 0x19],
      hex [0x01, 0x10, 0x00, 0x0A, 0x00, 0x03, 0x06, 0x00, 0x0A, 0x00, 0x0B, 0x6A, 0x04],
      hex [0x01, 0x03, 0x00, 0x64, 0x00, 0x00, 0x04, 0x15]].map (processStatus store100))
      = [.invalidValue, .crcError, .unsupportedFunction, .invalidValue, .invalidValue, .addressOutOfRange,
         .addressOutOfRange, .invalidValue, .invalidValue, .ok] := by decide +kernel

/-- Requests of section 5 that are turned away: too short, a bad CRC, and one for each status with an exception code. -/
def badRequests : List (List Byte) :=
  [hex [0x01, 0x03, 0x00], hex [0x01, 0x06, 0x00, 0x0F, 0x00, 0x01, 0x78, 0x08], hex [0x01, 0x2B, 0x40, 0x3F],
   hex [0x01, 0x03, 0x00, 0x63, 0x00, 0x02, 0x34, 0x15], hex [0x01, 0x03, 0x00, 0x0F, 0xB1, 0xDC]]

/-- Whether a step answers a next state whose status is other than OK. -/
def isTurnedAway (o : Host.Outcome State Fault Refusal) : Bool :=
  match outOf o with
  | some (.reply e _) => e != .ok
  | _ => false

theorem exists_turnedAway {o : Host.Outcome State Fault Refusal} (h : isTurnedAway o = true) :
    ∃ t e adu, o = .next t ∧ t.out = .reply e adu ∧ e ≠ .ok := by
  cases o with
  | next t =>
    cases ht : t.out with
    | reply e adu =>
      have h' : (e != .ok) = true := by simpa [isTurnedAway, outOf, nextOf, ht] using h
      exact ⟨t, e, adu, rfl, ht, by simpa using h'⟩
    | none => simp [isTurnedAway, outOf, nextOf, ht] at h
    | crc v => simp [isTurnedAway, outOf, nextOf, ht] at h
    | decoded d => simp [isTurnedAway, outOf, nextOf, ht] at h
  | fault r => cases r
  | refused r => simp [isTurnedAway, outOf, nextOf] at h

/-- RejectedRequestChangesNothing, NoResponseBytesOnFailureByDefault: the option off. -/
theorem witness_RejectedRequestChangesNothing :
    (block store100).excAduEn = false ∧
    ∀ req ∈ badRequests, ∃ t e adu, exec (.process req) (block store100) = .next t ∧ t.out = .reply e adu ∧ e ≠ .ok := by
  have h : ∀ req ∈ badRequests, isTurnedAway (exec (.process req) (block store100)) = true := by decide +kernel
  exact ⟨rfl, fun req hr => exists_turnedAway (h req hr)⟩

/-- ExceptionAduWhenEnabled: the option on. -/
theorem witness_ExceptionAduWhenEnabled :
    (withExc store100).excAduEn = true ∧
    ∀ req ∈ badRequests, ∃ t e adu, exec (.process req) (withExc store100) = .next t ∧ t.out = .reply e adu ∧ e ≠ .ok := by
  have h : ∀ req ∈ badRequests, isTurnedAway (exec (.process req) (withExc store100)) = true := by decide +kernel
  exact ⟨rfl, fun req hr => exists_turnedAway (h req hr)⟩

/-- ResponseIsSealedAndFits, OnlyWriteFunctionsMutate: a read that is answered OK. -/
theorem witness_ResponseIsSealedAndFits :
    (∀ fc, (hex [0x01, 0x03, 0x00, 0x64, 0x00, 0x00, 0x04, 0x15])[1]? = some fc → fc ∉ [0x05#8, 0x06#8, 0x0F#8, 0x10#8]) ∧
    ∃ t adu, exec (.process (hex [0x01, 0x03, 0x00, 0x64, 0x00, 0x00, 0x04, 0x15])) (block store100) = .next t ∧
      t.out = .reply .ok adu := by
  refine ⟨by intro fc h; cases h; decide, ?_⟩
  have h : nextOf (exec (.process (hex [0x01, 0x03, 0x00, 0x64, 0x00, 0x00, 0x04, 0x15])) (block store100))
      = some { block store100 with out := .reply .ok (hex [0x01, 0x03, 0x00, 0x20, 0xF0]) } := by decide +kernel
  exact ⟨_, _, eq_next_of_nextOf h, rfl⟩

/-- SingleWriteEchoesTheRequest: both function codes. -/
theorem witness_SingleWriteEchoesTheRequest :
    ∀ req ∈ [hex [0x01, 0x05, 0x00, 0x03, 0xFF, 0x01, 0xBD, 0xFA], hex [0x01, 0x06, 0x00, 0x0F, 0x04, 0xD2, 0x3B, 0x54]],
      req.length = 8 ∧ (req[1]? = some 0x05#8 ∨ req[1]? = some 0x06#8) ∧
      outOf (exec (.process req) (block zero100)) = some (.reply .ok req) := by decide +kernel

/-- SurplusBytesAreIgnored: the byte count is the number of data bytes. -/
theorem witness_SurplusBytesAreIgnored : (hex [0xCD, 0x01]).length = (0x02#8).toNat := by decide

/-- RangeCheckDoesNotWrap: quantity 0 at `address = size` and one past it. -/
theorem witness_RangeCheckDoesNotWrap :
    (block zero100).store = some zero100 ∧ Memory.wf zero100 = true ∧ zero100.hr.length < (0x0065#16).toNat ∧
    (0x0064#16).toNat ≤ zero100.hr.length ∧
    sizeOf (exec (.reqRHR 0x01#8 (.fields 0x0065#16 0x0000#16 [])) (block zero100)) = some (.addressOutOfRange, 0) ∧
    sizeOf (exec (.reqRHR 0x01#8 (.fields 0x0064#16 0x0000#16 [])) (block zero100)) = some (.ok, 5) := by decide +kernel

/-- The number of values a step decodes. -/
def countOf (o : Host.Outcome State Fault Refusal) : Option Nat :=
  match outOf o with
  | some (.decoded d) => some d.count
  | _ => none

/-- DecodeBitResponses: byte counts 2 and 3 in an ADU of 7 bytes, by both rows. -/
theorem witness_DecodeBitResponses :
    (∀ x ∈ [(0x01#8, Instr.rspRC 0x01#8 (hex [0x02, 0xCD, 0x01]) 0x0000#16),
        (0x02#8, Instr.rspRDI 0x01#8 (hex [0x03, 0xCD, 0x01]) 0x0000#16)],
      ∃ body, x ∈ [(0x01#8, Instr.rspRC 0x01#8 body 0x0000#16), (0x02#8, Instr.rspRDI 0x01#8 body 0x0000#16)]) ∧
    countOf (exec (.rspRC 0x01#8 (hex [0x02, 0xCD, 0x01]) 0x0000#16) (block zero100)) = some 16 ∧
    countOf (exec (.rspRDI 0x01#8 (hex [0x03, 0xCD, 0x01]) 0x0000#16) (block zero100)) = some 0 := by
  refine ⟨?_, by decide, by decide⟩
  intro x hx
  simp only [List.mem_cons, List.not_mem_nil, or_false] at hx
  rcases hx with rfl | rfl
  · exact ⟨_, List.mem_cons_self⟩
  · exact ⟨_, List.mem_cons_of_mem _ List.mem_cons_self⟩

/-- DecodeRegisterResponses: byte counts 4, 3 (an odd last byte) and 5 where 4 data bytes stand. -/
theorem witness_DecodeRegisterResponses :
    (∀ x ∈ [(0x03#8, Instr.rspRHR 0x01#8 (hex [0x04, 0, 1, 0, 2]) 0x0000#16),
        (0x04#8, Instr.rspRIR 0x01#8 (hex [0x05, 0, 1, 0, 2]) 0x0000#16)],
      ∃ body, x ∈ [(0x03#8, Instr.rspRHR 0x01#8 body 0x0000#16), (0x04#8, Instr.rspRIR 0x01#8 body 0x0000#16)]) ∧
    countOf (exec (.rspRHR 0x01#8 (hex [0x04, 0, 1, 0, 2]) 0x0000#16) (block zero100)) = some 2 ∧
    countOf (exec (.rspRHR 0x01#8 (hex [0x03, 0, 1, 0, 2]) 0x0000#16) (block zero100)) = some 1 ∧
    countOf (exec (.rspRIR 0x01#8 (hex [0x05, 0, 1, 0, 2]) 0x0000#16) (block zero100)) = some 0 := by
  refine ⟨?_, by decide, by decide, by decide⟩
  intro x hx
  simp only [List.mem_cons, List.not_mem_nil, or_false] at hx
  rcases hx with rfl | rfl
  · exact ⟨_, List.mem_cons_self⟩
  · exact ⟨_, List.mem_cons_of_mem _ List.mem_cons_self⟩

/-- DecodeWriteAcknowledgements: each row; an ADU of 8 bytes has the fields, one of 7 has not. -/
theorem witness_DecodeWriteAcknowledgements :
    (∀ x ∈ [(0x05#8, Instr.rspWSC 0x01#8 (parseBody []) 0x0000#16), (0x06#8, .rspWSR 0x01#8 (parseBody []) 0x0000#16),
        (0x0F#8, .rspWMC 0x01#8 (parseBody []) 0x0000#16), (0x10#8, .rspWMR 0x01#8 (parseBody []) 0x0000#16)],
      ∃ body, x ∈ [(0x05#8, Instr.rspWSC 0x01#8 (parseBody body) 0x0000#16),
        (0x06#8, .rspWSR 0x01#8 (parseBody body) 0x0000#16), (0x0F#8, .rspWMC 0x01#8 (parseBody body) 0x0000#16),
        (0x10#8, .rspWMR 0x01#8 (parseBody body) 0x0000#16)]) ∧
    outOf (exec (.decode (hex [0x01, 0x10, 0x00, 0x0A, 0x00, 0x03, 0x00, 0x00])) (block zero100))
      = some (.decoded ⟨[], some ⟨0x01#8, 0x10#8, 0x0000#16⟩, none, some ⟨0x000A#16, 0x0003#16⟩⟩) ∧
    outOf (exec (.decode (hex [0x01, 0x10, 0x00, 0x0A, 0x00, 0x00, 0x00])) (block zero100))
      = some (.decoded ⟨[], some ⟨0x01#8, 0x10#8, 0x0000#16⟩, none, none⟩) :=
  ⟨fun _ hx => ⟨[], hx⟩, by decide, by decide⟩

/-- DecodeExceptionResponse, DecodeUnknownFunction, DecodeShortBuffer: 0x80 is an exception, 0x7F is none; 3 bytes are too
few. -/
theorem witness_DecodeExceptionResponse :
    (0x80#8).getLsbD 7 = true ∧ (0x7F#8).getLsbD 7 = false ∧
    0x7F#8 ∉ [0x01#8, 0x02#8, 0x03#8, 0x04#8, 0x05#8, 0x06#8, 0x0F#8, 0x10#8] ∧ (hex [0x01, 0x83, 0x02]).length < 4 ∧
    outOf (exec (.decode (hex [0x01, 0x80, 0x34, 0x12])) (block zero100))
      = some (.decoded ⟨[], some ⟨0x01#8, 0x80#8, 0x1234#16⟩, some 0x34#8, none⟩) := by decide

/-- DecodeGivesAtMost2008Values: a buffer of exactly 256 bytes. -/
theorem witness_DecodeGivesAtMost2008Values : (hex [0x01, 0x01, 0xFB] ++ List.replicate 253 0xFF#8).length ≤ 256 := by
  decide +kernel

/-- ProcessWithoutStoreIsRefused: a block whose store is destroyed. -/
theorem witness_ProcessWithoutStoreIsRefused :
    (block zero100).destroyStore.store = none ∧ Instr.process [] ∈ [Instr.process [], .reqRC 0x01#8 (.short [])] := by decide

/-- OnlyResetChangesInputsAndSizes, NoStepWritesTheOptionParameters: a write that changes the store. -/
theorem witness_OnlyResetChangesInputsAndSizes :
    (given zero100 (.process (hex [0x01, 0x06, 0x00, 0x0F, 0x04, 0xD2, 0x3B, 0x54]))).pending
      = [.process (hex [0x01, 0x06, 0x00, 0x0F, 0x04, 0xD2, 0x3B, 0x54])] ∧
    (∀ init, Command.process (hex [0x01, 0x06, 0x00, 0x0F, 0x04, 0xD2, 0x3B, 0x54]) ≠ .reset init) ∧
    (given zero100 (.process (hex [0x01, 0x06, 0x00, 0x0F, 0x04, 0xD2, 0x3B, 0x54]))).store = some zero100 ∧
    ∃ t, step (given zero100 (.process (hex [0x01, 0x06, 0x00, 0x0F, 0x04, 0xD2, 0x3B, 0x54]))) = .next t := by
  refine ⟨rfl, fun _ h => (by cases h), rfl, ?_⟩
  have h : nextOf (step (given zero100 (.process (hex [0x01, 0x06, 0x00, 0x0F, 0x04, 0xD2, 0x3B, 0x54]))))
      = some { block { zero100 with hr := memWrite zero100.hr 15 [0x04D2#16] } with
          out := .reply .ok (hex [0x01, 0x06, 0x00, 0x0F, 0x04, 0xD2, 0x3B, 0x54]) } := by decide +kernel
  exact ⟨_, eq_next_of_nextOf h⟩

/-- NextCommandForgetsEarlierOutputs: a command is pending. -/
theorem witness_NextCommandForgetsEarlierOutputs : (given zero100 (.crc16 [])).pending ≠ [] := by decide

/-- EveryStepKeepsTheForm, AReadyBlockNeverStops: a block in the form with two commands pending, of two kinds. -/
theorem witness_AReadyBlockNeverStops :
    ((given zero100 (.crc16 [])).present (.process [])).inv = true ∧
    ((given zero100 (.crc16 [])).present (.process [])).ready = true ∧
    ∃ t, step ((given zero100 (.crc16 [])).present (.process [])) = .next t :=
  ⟨by decide +kernel, by decide +kernel, _, rfl⟩

/-- StepRunsTheDecodedCommand: a pending command that decodes, and a block with none. -/
theorem witness_StepRunsTheDecodedCommand :
    (given zero100 (.encode (plain 0x03#8 0x000F#16 0x0001#16))).pending = [.encode (plain 0x03#8 0x000F#16 0x0001#16)] ∧
    decode (.encode (plain 0x03#8 0x000F#16 0x0001#16)) = .ok (.encRHR 0x01#8 0x000F#16 0x0001#16) ∧
    (block zero100).pending = [] := by decide

/-- UnpresentableCommandsAreRefused: each clause just past its limit. -/
theorem witness_UnpresentableCommandsAreRefused :
    256 < (List.replicate 257 0x00#8).length ∧
    refusalOf (step (given zero100 (.process (List.replicate 257 0x00#8)))) = some (.notPresentable .aduTooLong) ∧
    refusalOf (step (given zero100 (.decode (List.replicate 257 0x00#8)))) = some (.notPresentable .aduTooLong) ∧
    refusalOf (step (given zero100 (.encode { plain 0x10#8 0x0000#16 0x0001#16 with payload := ⟨true, 0x0002#16, [0x00#8]⟩ })))
      = some (.notPresentable .payloadLength) ∧
    outOf (step (given zero100 (.encode { plain 0x10#8 0x0000#16 0x0002#16 with payload := ⟨true, 0x0002#16, [0x00#8]⟩ })))
      = some (.reply .invalidValue []) := by decide +kernel

/-- The same for a bank of 65537 elements. -/
theorem witness_UnpresentableBank :
    65536 < ({ zero100 with co := List.replicate 65537 false } : Store).co.length := by
  have h : ({ zero100 with co := List.replicate 65537 false } : Store).co.length = 65537 := List.length_replicate
  omega

/-- DecodeOfEncodeIsTheInstruction: a well-formed row with a body. -/
theorem witness_DecodeOfEncodeIsTheInstruction :
    (Instr.reqWMC 0x01#8 (.fields 0x0014#16 0x000A#16 (hex [0x02, 0xCD, 0x01]))).wf = true ∧
    (∀ f, Instr.reqWMC 0x01#8 (.fields 0x0014#16 0x000A#16 (hex [0x02, 0xCD, 0x01])) ≠ .encode f) ∧
    (∀ req, Instr.reqWMC 0x01#8 (.fields 0x0014#16 0x000A#16 (hex [0x02, 0xCD, 0x01])) ≠ .process req) ∧
    (∀ buf, Instr.reqWMC 0x01#8 (.fields 0x0014#16 0x000A#16 (hex [0x02, 0xCD, 0x01])) ≠ .decode buf) :=
  ⟨by decide, fun _ h => (by cases h), fun _ h => (by cases h), fun _ h => (by cases h)⟩

/-- EncodeOfDecodeIsTheCommand, DecodedInstructionsAreWellFormed: commands that decode; the second alternative, where the
ignored quantity comes back 0. -/
theorem witness_EncodeOfDecodeIsTheCommand :
    decode (.process (hex [0x01, 0x2B, 0x40, 0x3F])) = .ok (.reqOther 0x01#8 0x2B#8 []) ∧
    encode (.reqOther 0x01#8 0x2B#8 []) = .process (hex [0x01, 0x2B, 0x40, 0x3F]) ∧
    decode (.encode (plain 0x07#8 0x1234#16 0x5678#16)) = .ok (.encOther 0x01#8 0x07#8 0x1234#16) ∧
    encode (.encOther 0x01#8 0x07#8 0x1234#16) = .encode (plain 0x07#8 0x1234#16 0x0000#16) := by decide +kernel

/-- RegistersRoundTripThroughTheBlock: 123 registers up to the end of the bank. -/
theorem witness_RegistersRoundTripThroughTheBlock :
    (block wide).store = some wide ∧ (0x0003#16).toNat + (List.replicate 123 0x1234#16).length ≤ wide.hr.length ∧
    (List.replicate 123 0x1234#16).length ≤ 123 := by decide +kernel

/-- CoilsRoundTripThroughTheBlock: 1976 coils, the most a request carries, and 10 up to the end of the bank. -/
theorem witness_CoilsRoundTripThroughTheBlock :
    (block wide).store = some wide ∧
    (∀ x ∈ [(0x0000#16, 0x07B8#16, List.replicate 247 0xCD#8), (0x07CF#16, 0x000A#16, hex [0xCD, 0x01])],
      (BitVec.toNat x.1) + (BitVec.toNat x.2.1) ≤ wide.co.length ∧ x.2.2.length = (BitVec.toNat x.2.1 + 7) / 8 ∧
        BitVec.toNat x.2.1 ≤ 1976) := by
  decide +kernel

end Sys2Proof.Tests
end

/-!
A ready block never stops (O46): ENCODE and DECODE rows only emit outputs, a request served from a store always answers, RESET
makes a store; so every presentable command answers a next state with a store and the later commands still pending.
-/

namespace Sys2Proof.Machine

/-- The outcome is a next state with a store, in which the same commands are pending as in `s`. -/
def GoesOn (s : State) (r : Host.Outcome State Fault Refusal) : Prop :=
  ∃ t, r = .next t ∧ t.store.isSome = true ∧ t.pending = s.pending

theorem ready_iff {s : State} :
    s.ready = true ↔ s.store.isSome = true ∧ ∀ c ∈ s.pending, rejection? c = none := by
  simp [State.ready]

/-! ### One step -/

theorem step_of_idle {s : State} (h : s.pending = []) : step s = .next s := by
  simp only [step, h]

theorem step_of_presentable {s : State} {c : Command} {rest : List Command} (h : s.pending = c :: rest)
    (hc : rejection? c = none) : step s = exec (resolve c) { s with pending := rest } := by
  simp only [step, h, decode, hc]

/-! ### The encoder's and the decoder's rows only emit -/

theorem encodeMultiple_emits (s : State) (unit fc : Byte) (address quantity : Word) (p : Payload) (bc : Nat) :
    ∃ o, s.encodeMultiple unit fc address quantity p bc = s.emit o := by
  obtain h | ⟨-, -, -, h⟩ := encodeMultiple_cases s unit fc address quantity p bc
  · exact ⟨_, h⟩
  · exact ⟨_, h⟩

theorem exec_encRow_emits (f : Descriptor) (s : State) : ∃ o, exec (encRow f) s = .next (s.emit o) := by
  unfold encRow
  cases functionCode? f.fc with
  | none => exact ⟨_, rfl⟩
  | some k =>
    cases k with
    | rc | rdi | rhr | rir | wsc | wsr => exact ⟨_, rfl⟩
    | wmc | wmr => exact (encodeMultiple_emits ..).imp fun _ h => congrArg Host.Outcome.next h

theorem exec_rspRow_emits (p : AduParts) (s : State) : ∃ o, exec (rspRow p) s = .next (s.emit o) := by
  by_cases h7 : p.fc.getLsbD 7 = true
  · rw [rspRow, if_pos h7]; exact ⟨_, rfl⟩
  · cases hk : functionCode? p.fc with
    | none => rw [rspRow, if_neg h7, hk]; exact ⟨_, rfl⟩
    | some k =>
      rw [exec_rspRow p k s (functionCode?_eq_some_iff.mp hk)]
      cases k <;> exact ⟨_, rfl⟩

theorem exec_resolveResponse_emits (buf : List Byte) (s : State) :
    ∃ o, exec (resolveResponse buf) s = .next (s.emit o) := by
  cases hp : splitAdu buf with
  | none =>
    simp only [resolveResponse, hp, exec, execDecode]
    exact ⟨_, rfl⟩
  | some p =>
    simp only [resolveResponse, hp]
    exact exec_rspRow_emits p s

/-! ### What goes on where a store exists -/

theorem goesOn_of_emits {s : State} (hs : s.store.isSome = true) {r : Host.Outcome State Fault Refusal}
    (h : ∃ o, r = .next (s.emit o)) : GoesOn s r := by
  obtain ⟨o, rfl⟩ := h
  exact ⟨_, rfl, hs, rfl⟩

theorem serve_goesOn {s : State} (hs : s.store.isSome = true) (unit fc : Byte)
    (f : Store → Except Status (Store × List Byte)) : GoesOn s (s.serve unit fc f) := by
  obtain ⟨st, hst⟩ := Option.isSome_iff_exists.mp hs
  cases hf : f st with
  | error e => exact ⟨_, serve_error hst hf, hs, rfl⟩
  | ok r => exact ⟨_, serve_ok hst hf, rfl, rfl⟩

theorem exec_reqRow_goesOn {s : State} (hs : s.store.isSome = true) (p : AduParts) : GoesOn s (exec (reqRow p) s) := by
  cases hk : functionCode? p.fc with
  | none => rw [reqRow, hk]; exact serve_goesOn hs p.unit p.fc fun _ => .error .unsupportedFunction
  | some k => rw [exec_reqRow hk]; exact serve_goesOn hs ..

/-- R121: a request too short to split is answered with INVALID_VALUE and no byte. -/
theorem exec_process_short {s : State} {st : Store} (hst : s.store = some st) {req : List Byte}
    (h : splitAdu req = none) : exec (.process req) s = .next (s.emit (.reply .invalidValue [])) := by
  simp only [exec, execProcess, hst, h, State.raise_none]

/-- R122: a request with a wrong CRC is answered with CRC_ERROR and no byte. -/
theorem exec_process_crcError {s : State} {st : Store} (hst : s.store = some st) {req : List Byte} {p : AduParts}
    (h : splitAdu req = some p) (hc : crc16 p.covered ≠ p.crc) :
    exec (.process req) s = .next (s.emit (.reply .crcError [])) := by
  simp only [exec, execProcess, hst, h, if_pos hc, State.raise_none]

theorem exec_resolveRequest_goesOn {s : State} (hs : s.store.isSome = true) (req : List Byte) :
    GoesOn s (exec (resolveRequest req) s) := by
  obtain ⟨st, hst⟩ := Option.isSome_iff_exists.mp hs
  cases hp : splitAdu req with
  | none =>
    simp only [resolveRequest, hp]
    exact goesOn_of_emits hs ⟨_, exec_process_short hst hp⟩
  | some p =>
    simp only [resolveRequest, hp]
    by_cases hc : crc16 p.covered = p.crc
    · rw [if_pos hc]; exact exec_reqRow_goesOn hs p
    · rw [if_neg hc]; exact goesOn_of_emits hs ⟨_, exec_process_crcError hst hp hc⟩

/-- Every command, presentable or not, is answered where a store exists: only the decoder's rejection can stop a step. -/
theorem exec_resolve_goesOn {s : State} (hs : s.store.isSome = true) (c : Command) :
    GoesOn s (exec (resolve c) s) := by
  cases c with
  | crc16 data => exact goesOn_of_emits hs ⟨_, rfl⟩
  | encode f => exact goesOn_of_emits hs (exec_encRow_emits f s)
  | process req => exact exec_resolveRequest_goesOn hs req
  | decode buf => exact goesOn_of_emits hs (exec_resolveResponse_emits buf s)
  | reset init => exact ⟨_, rfl, rfl, rfl⟩

/-- Settles O46: an idle block waits in the same state; otherwise the oldest command is presentable, runs, and leaves a store and
the later commands. -/
theorem aReadyBlockNeverStops : Obligations.AReadyBlockNeverStops := by
  unfold Obligations.AReadyBlockNeverStops
  intro s h
  obtain ⟨hs, hall⟩ := ready_iff.mp h
  cases hp : s.pending with
  | nil => exact ⟨s, step_of_idle hp, h⟩
  | cons c rest =>
    rw [hp, List.forall_mem_cons] at hall
    obtain ⟨hc, hrest⟩ := hall
    obtain ⟨t, ht, hts, htp⟩ := exec_resolve_goesOn (s := { s with pending := rest }) hs c
    exact ⟨t, (step_of_presentable hp hc).trans ht, ready_iff.mpr ⟨hts, htp ▸ hrest⟩⟩

end Sys2Proof.Machine

/-!
What the steps keep of the state (spec/10_state.md). `step_effect` says once what a command that is answered can have done:
emit outputs within capacity, serve a request from the store, or create a store. The claims about what a step keeps (O41,
O42, O44) are case analyses of it.
-/

namespace Sys2Proof.Machine

/-! ### A whole command is the row it resolves to -/

theorem exec_encode (f : Descriptor) (s : State) : exec (.encode f) s = execEncode f s := rfl

theorem exec_process (req : List Byte) (s : State) : exec (.process req) s = execProcess req s := rfl

theorem exec_decode (buf : List Byte) (s : State) : exec (.decode buf) s = execDecode buf s := rfl

theorem exec_encRow_eq_encode (f : Descriptor) (s : State) : exec (encRow f) s = exec (.encode f) s := by
  simp only [exec_encode, execEncode, encRow]
  cases functionCode? f.fc with
  | none => rfl
  | some k => cases k <;> rfl

theorem exec_resolveResponse_eq_decode (buf : List Byte) (s : State) :
    exec (resolveResponse buf) s = exec (.decode buf) s := by
  cases hp : splitAdu buf with
  | none => simp only [resolveResponse, hp]
  | some p =>
    simp only [resolveResponse, hp, exec_decode, execDecode, rspRow]
    by_cases h7 : p.fc.getLsbD 7 = true
    · rw [if_pos h7, if_pos h7]; rfl
    · rw [if_neg h7, if_neg h7]
      cases functionCode? p.fc with
      | none => rfl
      | some k => cases k <;> rfl

/-- Without a store every REQ row is refused (R213). -/
theorem exec_reqRow_no_store {s : State} (h : s.store = none) (p : AduParts) :
    exec (reqRow p) s = .refused .noStore := by
  cases hk : functionCode? p.fc with
  | none => rw [reqRow, hk]; exact serve_no_store h p.unit p.fc fun _ => .error .unsupportedFunction
  | some k => rw [exec_reqRow hk]; exact serve_no_store h ..

/-- With or without a store: a request that never reaches a row is PROCESS itself, and the others do what PROCESS does. -/
theorem exec_resolveRequest_eq_process (req : List Byte) (s : State) :
    exec (resolveRequest req) s = exec (.process req) s := by
  cases hp : splitAdu req with
  | none => simp only [resolveRequest, hp]
  | some p =>
    by_cases hc : crc16 p.covered = p.crc
    · simp only [resolveRequest, hp, if_pos hc]
      cases hs : s.store with
      | none => rw [exec_reqRow_no_store hs]; simp only [exec_process, execProcess, hs]
      | some st =>
        simp only [exec_process, execProcess, hs, hp, ne_eq, hc, not_true_eq_false, if_false, reqRow]
        cases functionCode? p.fc with
        | none => rfl
        | some k => cases k <;> rfl
    · simp only [resolveRequest, hp, if_neg hc]

/-! ### The outputs fit -/

theorem reply_fits {e : Status} {adu : List Byte} : (Output.reply e adu).fits = true ↔ adu.length ≤ 256 :=
  decide_eq_true_iff

theorem decoded_fits {d : Decoded} : (Output.decoded d).fits = true ↔ d.values.length ≤ 2008 :=
  decide_eq_true_iff

theorem exceptionAdu_fits (s : State) (unit fc : Byte) (e : Status) :
    (Output.reply e (s.exceptionAdu unit fc e)).fits = true := by
  rw [reply_fits]
  obtain h | h := exceptionAdu_length s unit fc e <;> omega

theorem encoded_fits (s : State) (unit fc : Byte) (address : Word) {tail : List Byte} (h : tail.length ≤ 250) :
    (s.encoded unit fc address tail).out.fits = true :=
  reply_fits.mpr (by rw [requestAdu_length]; omega)

/-- The capacity test of R113 bounds a multiple write's ADU: two quantity bytes, the count, at most 247 data bytes. -/
theorem encodeMultiple_fits (s : State) (unit fc : Byte) (address quantity : Word) (p : Payload) (bc : Nat) :
    (s.encodeMultiple unit fc address quantity p bc).out.fits = true := by
  obtain h | ⟨-, -, hbc, h⟩ := encodeMultiple_cases s unit fc address quantity p bc
  · rw [h]; rfl
  · rw [h]
    refine encoded_fits _ _ _ _ ?_
    simp only [List.length_append, wordBytes_length, List.length_cons, List.length_take]
    omega

theorem exec_encRow_fits {f : Descriptor} {s t : State} (h : exec (encRow f) s = .next t) : t.out.fits = true := by
  unfold encRow at h
  cases hk : functionCode? f.fc with
  | none => rw [hk] at h; cases h; exact encoded_fits _ _ _ _ (Nat.zero_le _)
  | some k =>
    cases k with
    | rc | rdi | rhr | rir | wsc | wsr =>
      rw [hk] at h; cases h; exact encoded_fits _ _ _ _ (by rw [wordBytes_length]; omega)
    | wmc | wmr => rw [hk] at h; cases h; exact encodeMultiple_fits ..

/-- A response of at most 256 bytes has at most 251 data bytes, eight values each at most (R174). -/
theorem exec_rspRow_fits {p : AduParts} (hp : p.body.length ≤ 252) {s t : State} (h : exec (rspRow p) s = .next t) :
    t.out.fits = true := by
  have hdata := dataArea_length_le p.body
  by_cases h7 : p.fc.getLsbD 7 = true
  · rw [rspRow, if_pos h7] at h; cases h; rfl
  · cases hk : functionCode? p.fc with
    | none => rw [rspRow, if_neg h7, hk] at h; cases h; rfl
    | some k =>
      rw [exec_rspRow p k s (functionCode?_eq_some_iff.mp hk)] at h
      cases k with
      | rc | rdi => cases h; exact decoded_fits.mpr (by rw [bitValues_length]; omega)
      | rhr | rir => cases h; exact decoded_fits.mpr (by rw [regValues_length]; omega)
      | wsc | wsr | wmc | wmr => cases h; rfl

theorem exec_resolveResponse_fits {buf : List Byte} (hb : buf.length ≤ 256) {s t : State}
    (h : exec (resolveResponse buf) s = .next t) : t.out.fits = true := by
  cases hp : splitAdu buf with
  | none => simp only [resolveResponse, hp, exec_decode, execDecode] at h; cases h; rfl
  | some p =>
    obtain rfl := splitAdu_eq_some_iff.mp hp
    rw [AduParts.bytes_length] at hb
    simp only [resolveResponse, hp] at h
    exact exec_rspRow_fits (by omega) h

/-! ### What a command can do -/

/-- The ways in which an answered command leads from one state to the next. -/
inductive Effect : Command → State → State → Prop where
  /-- Outputs within capacity, and nothing else. -/
  | emits {c : Command} {s : State} (o : Output) (ho : o.fits = true) : Effect c s (s.emit o)
  /-- A request served: the store its function's rule gives, and the sealed response. -/
  | serves {c : Command} {s : State} {st st' : Store} {k : FunctionCode} {b : Body} (unit fc : Byte) {body : List Byte}
      (hst : s.store = some st) (hrow : serveRow k b st = .ok (st', body)) :
      Effect c s { s with store := some st', out := .reply .ok (sealAdu (unit :: fc :: body)) }
  /-- RESET: a store of the form, and no outputs. -/
  | creates {s : State} {init : Store} (hwf : Memory.wf init = true) :
      Effect (.reset init) s { s with store := some init, out := .none }

theorem process_effect {c : Command} {req : List Byte} {s t : State} (h : exec (.process req) s = .next t) :
    Effect c s t := by
  obtain ⟨st, hst, ⟨-, rfl⟩ | ⟨p, -, ⟨-, rfl⟩ | ⟨-, ⟨-, rfl⟩ | ⟨k, -, ⟨e, -, rfl⟩ | ⟨st', body, hrow, rfl⟩⟩⟩⟩⟩ :=
    process_cases h
  · exact .emits _ rfl
  · exact .emits _ rfl
  · exact .emits _ (exceptionAdu_fits ..)
  · exact .emits _ (exceptionAdu_fits ..)
  · exact .serves p.unit p.fc hst hrow

theorem exec_resolve_effect {c : Command} (hc : rejection? c = none) {s t : State}
    (h : exec (resolve c) s = .next t) : Effect c s t := by
  cases c with
  | crc16 data => cases h; exact .emits _ rfl
  | encode f =>
    obtain ⟨o, ho⟩ := exec_encRow_emits f s
    cases ho.symm.trans h
    exact .emits o (exec_encRow_fits ho)
  | process req => exact process_effect ((exec_resolveRequest_eq_process req s).symm.trans h)
  | decode buf =>
    obtain ⟨o, ho⟩ := exec_resolveResponse_emits buf s
    cases ho.symm.trans h
    have hb : buf.length ≤ 256 := by simpa [rejection?] using hc
    exact .emits o (exec_resolveResponse_fits hb ho)
  | reset init =>
    cases h
    exact .creates (by simpa [rejection?] using hc)

/-- A step that answers a next state waited, or the oldest command took effect. -/
theorem step_effect {s t : State} (h : step s = .next t) :
    (s.pending = [] ∧ t = s) ∨
    ∃ c rest, s.pending = c :: rest ∧ Effect c { s with pending := rest } t := by
  obtain hidle | ⟨c, rest, hp, hc, hex⟩ := step_cases h
  · exact .inl hidle
  · exact .inr ⟨c, rest, hp, exec_resolve_effect hc hex⟩

/-! ### What every step keeps -/

/-- Settles O41: only RESET creates a store; emitting keeps the store, and a served request keeps its inputs and sizes. -/
theorem onlyResetChangesInputsAndSizes : Obligations.OnlyResetChangesInputsAndSizes := by
  unfold Obligations.OnlyResetChangesInputsAndSizes
  intro s t st c rest hp hreset hst h
  obtain ⟨hidle, -⟩ | ⟨c', rest', hp', heff⟩ := step_effect h
  · rw [hp] at hidle; cases hidle
  · cases hp.symm.trans hp'
    cases heff with
    | emits o => exact ⟨st, hst, rfl, rfl, rfl, rfl⟩
    | serves unit fc hst' hrow =>
      cases hst.symm.trans hst'
      obtain ⟨-, -, hkeep⟩ := serveRow_ok hrow
      exact ⟨_, rfl, hkeep⟩
    | creates => exact absurd rfl (hreset _)

theorem inv_iff {s : State} :
    s.inv = true ↔ (∀ st, s.store = some st → Memory.wf st = true) ∧ s.out.fits = true := by
  rw [State.inv, Bool.and_eq_true, State.storeWf]
  cases s.store <;> simp

/-- The invariant of O44 survives every effect: the outputs fit in each, and a served request keeps the store's form. -/
theorem Effect.keeps_inv {c : Command} {s t : State} (heff : Effect c s t) (h : s.inv = true) : t.inv = true := by
  obtain ⟨hwf, -⟩ := inv_iff.mp h
  rw [inv_iff]
  cases heff with
  | emits o ho => exact ⟨hwf, ho⟩
  | serves unit fc hst hrow =>
    obtain ⟨-, hlen, -⟩ := serveRow_ok hrow
    refine ⟨fun _ he => Option.some.inj he ▸ serveRow_wf hrow (hwf _ hst), reply_fits.mpr ?_⟩
    rw [sealAdu_length, List.length_cons, List.length_cons]; omega
  | creates hinit => exact ⟨fun _ he => Option.some.inj he ▸ hinit, rfl⟩

/-- Settles O44: an idle step changes nothing, and every effect of a command keeps the invariant. -/
theorem everyStepKeepsTheForm : Obligations.EveryStepKeepsTheForm := by
  unfold Obligations.EveryStepKeepsTheForm
  intro s t hinv h
  obtain ⟨-, rfl⟩ | ⟨c, rest, -, heff⟩ := step_effect h
  · exact hinv
  · exact heff.keeps_inv hinv

/-- Settles O42: no effect of a command is on an option parameter. -/
theorem noStepWritesTheOptionParameters : Obligations.NoStepWritesTheOptionParameters := by
  unfold Obligations.NoStepWritesTheOptionParameters
  intro s t h
  obtain ⟨-, rfl⟩ | ⟨c, rest, -, heff⟩ := step_effect h
  · exact ⟨rfl, rfl⟩
  · cases heff <;> exact ⟨rfl, rfl⟩

/-! ### Which commands change the store -/

/-- The rule of a function code that is none of the four write codes gives the store back. -/
theorem serveRow_read_store {k : FunctionCode} (hk : k.byte ∉ [0x05#8, 0x06#8, 0x0F#8, 0x10#8]) {b : Body}
    {st st' : Store} {body : List Byte} (h : serveRow k b st = .ok (st', body)) : st' = st := by
  cases k with
  | rc | rdi | rhr | rir => obtain ⟨bytes, -, he⟩ := map_eq_ok h; cases he; rfl
  | wsc | wsr | wmc | wmr => exact absurd (by decide) hk

/-- Settles O25: a request is answered without a change of the store, or served by the rule of the code at offset 1, which
only reads. -/
theorem onlyWriteFunctionsMutate : Obligations.OnlyWriteFunctionsMutate := by
  unfold Obligations.OnlyWriteFunctionsMutate
  intro req s t hfc h
  obtain ⟨st, hst, ⟨-, rfl⟩ | ⟨p, rfl, ⟨-, rfl⟩ | ⟨-, ⟨-, rfl⟩ | ⟨k, hk, ⟨e, -, rfl⟩ | ⟨st', body, hrow, rfl⟩⟩⟩⟩⟩ :=
    process_cases h
  · rfl
  · rfl
  · rfl
  · rfl
  · have hread := hfc p.fc rfl
    rw [functionCode?_eq_some_iff.mp hk] at hread
    rw [hst, serveRow_read_store hread hrow]

/-- Settles O40: ENCODE and DECODE are the rows they resolve to, and these only emit. -/
theorem pureCommandsTouchOnlyTheirOutputs : Obligations.PureCommandsTouchOnlyTheirOutputs := by
  unfold Obligations.PureCommandsTouchOnlyTheirOutputs
  intro s data buf f i hi
  simp only [List.mem_cons, List.not_mem_nil, or_false] at hi
  obtain rfl | rfl | rfl := hi
  · exact ⟨_, rfl⟩
  · rw [← exec_encRow_eq_encode]; exact exec_encRow_emits f s
  · rw [← exec_resolveResponse_eq_decode]; exact exec_resolveResponse_emits buf s

/-! ### Earlier outputs are forgotten -/

/-- R27, R29: no meaning reads the outputs an earlier command left; each builds its next state from the other fields, so
both sides compute to the same outcome. -/
theorem exec_emit (i : Instr) (s : State) (o : Output) : exec i (s.emit o) = exec i s := by
  cases i <;> rfl

/-- Settles O43: the pending command decodes the same, and its instruction does not read the outputs. -/
theorem nextCommandForgetsEarlierOutputs : Obligations.NextCommandForgetsEarlierOutputs := by
  unfold Obligations.NextCommandForgetsEarlierOutputs
  intro s o hp
  obtain ⟨c, rest, hp⟩ := List.exists_cons_of_ne_nil hp
  simp only [step, hp]
  cases decode c with
  | error why => rfl
  | ok i => exact exec_emit i { s with pending := rest } o

/-! ### The decoder gives well-formed instructions -/

theorem parseBody_wf {bytes : List Byte} (h : bytes.length ≤ 252) : (parseBody bytes).wf = true := by
  unfold parseBody
  split
  · simp only [List.length_cons] at h
    exact decide_eq_true (show _ ≤ 256 by omega)
  · rename_i hshort
    refine decide_eq_true ?_
    rcases bytes with _ | ⟨b2, _ | ⟨b3, _ | ⟨b4, _ | ⟨b5, rest⟩⟩⟩⟩
    · simp
    · simp
    · simp
    · simp
    · exact absurd rfl (hshort b2 b3 b4 b5 rest)

theorem bodyFits_of_le {bytes : List Byte} (h : bytes.length ≤ 252) : bodyFits bytes = true :=
  decide_eq_true (show _ ≤ 256 by omega)

/-- The payload test of a descriptor is the one of the multiple write it selects. -/
theorem encRow_wf {f : Descriptor} (h : f.wf = true) : (encRow f).wf = true := by
  unfold encRow
  cases hk : functionCode? f.fc with
  | none => simp [Instr.wf, functionCode?_eq_none_iff.mp hk]
  | some k =>
    have hfc := functionCode?_eq_some_iff.mp hk
    cases k with
    | rc | rdi | rhr | rir | wsc | wsr => rfl
    | wmc | wmr => simpa [Descriptor.wf, Instr.wf, hfc, FunctionCode.byte] using h

theorem reqRow_wf {p : AduParts} (h : p.body.length ≤ 252) : (reqRow p).wf = true := by
  unfold reqRow
  cases hk : functionCode? p.fc with
  | none => simp [Instr.wf, functionCode?_eq_none_iff.mp hk, bodyFits_of_le h]
  | some k => cases k <;> exact parseBody_wf h

theorem rspRow_wf {p : AduParts} (h : p.body.length ≤ 252) : (rspRow p).wf = true := by
  unfold rspRow
  by_cases h7 : p.fc.getLsbD 7 = true
  · rw [if_pos h7]
    exact Bool.and_eq_true_iff.mpr ⟨h7, bodyFits_of_le h⟩
  · rw [if_neg h7]
    cases hk : functionCode? p.fc with
    | none => simp only [Instr.wf, functionCode?_eq_none_iff.mp hk, h7, bodyFits_of_le h]; rfl
    | some k =>
      cases k with
      | rc | rdi | rhr | rir => exact bodyFits_of_le h
      | wsc | wsr | wmc | wmr => exact parseBody_wf h

theorem resolveRequest_wf {req : List Byte} (h : req.length ≤ 256) : (resolveRequest req).wf = true := by
  unfold resolveRequest
  cases hp : splitAdu req with
  | none => exact decide_eq_true h
  | some p =>
    by_cases hc : crc16 p.covered = p.crc
    · simp only [if_pos hc]
      rw [splitAdu_eq_some_iff.mp hp, AduParts.bytes_length] at h
      exact reqRow_wf (by omega)
    · simp only [if_neg hc]
      exact decide_eq_true h

theorem resolveResponse_wf {buf : List Byte} (h : buf.length ≤ 256) : (resolveResponse buf).wf = true := by
  unfold resolveResponse
  cases hp : splitAdu buf with
  | none => exact decide_eq_true h
  | some p =>
    rw [splitAdu_eq_some_iff.mp hp, AduParts.bytes_length] at h
    exact rspRow_wf (by omega)

/-- Settles O52: what makes a command presentable is what its instruction's well-formedness asks. -/
theorem decodedInstructionsAreWellFormed : Obligations.DecodedInstructionsAreWellFormed := by
  unfold Obligations.DecodedInstructionsAreWellFormed
  intro c i h
  obtain ⟨hc, rfl⟩ := decode_eq_ok_iff.mp h
  cases c with
  | crc16 data => rfl
  | encode f => exact encRow_wf (by simpa [rejection?] using hc)
  | process req => exact resolveRequest_wf (by simpa [rejection?] using hc)
  | decode buf => exact resolveResponse_wf (by simpa [rejection?] using hc)
  | reset init => simpa [resolve, Instr.wf, rejection?] using hc

/-! ### The state after reset -/

/-- A bank written out from its first `n` elements, as STORE_INIT's are (R12). -/
theorem bank_of_elements {α : Type} (n : Nat) (f : Nat → α) :
    ((List.range n).map f).length = n ∧ ∀ k, k < n → ((List.range n).map f)[k]? = some (f k) := by
  constructor
  · simp
  · intro k hk; simp [hk]

/-- Settles O38: the reset store is STORE_INIT, whose banks are written out element by element. -/
theorem stateAfterReset : Obligations.StateAfterReset := by
  unfold Obligations.StateAfterReset
  obtain ⟨hrLen, hr⟩ := bank_of_elements Config.sizeH Config.initHR
  obtain ⟨irLen, ir⟩ := bank_of_elements Config.sizeI Config.initIR
  obtain ⟨coLen, co⟩ := bank_of_elements Config.sizeC Config.initCO
  obtain ⟨diLen, di⟩ := bank_of_elements Config.sizeD Config.initDI
  exact ⟨Config.storeInit, rfl, hrLen, irLen, coLen, diLen, hr, ir, co, di, rfl, rfl⟩

/-- Settles O45: STORE_INIT has the form for all sizes, and no command is pending. -/
theorem resetHasTheForm : Obligations.ResetHasTheForm := by
  unfold Obligations.ResetHasTheForm
  refine ⟨inv_iff.mpr ⟨fun st hst => ?_, rfl⟩, rfl⟩
  cases hst
  exact memory_wf_storeInit

/-! ### What a step runs, and what it refuses -/

/-- Settles O47: a command that decodes is presentable, so the step runs what it resolves to. -/
theorem stepRunsTheDecodedCommand : Obligations.StepRunsTheDecodedCommand := by
  unfold Obligations.StepRunsTheDecodedCommand
  refine ⟨fun s c rest i hp hd => ?_, fun s hp => step_of_idle hp⟩
  obtain ⟨hc, rfl⟩ := decode_eq_ok_iff.mp hd
  exact step_of_presentable hp hc

theorem step_of_rejected {s : State} {c : Command} {rest : List Command} (hp : s.pending = c :: rest) {why : Reject}
    (hc : rejection? c = some why) : step s = .refused (.notPresentable why) := by
  simp only [step, hp, decode, hc]

/-- R79: a payload that passes every test but has fewer bytes than are copied. -/
theorem payload_not_wf {p : Payload} {bc : Nat} (hpresent : p.present = true) (hlen : p.len.toNat = bc)
    (hcap : 9 + bc ≤ 256) (hbytes : p.bytes.length < bc) : p.wf bc = false := by
  simp [Payload.wf, hpresent, hlen, hcap, hbytes]

/-- Settles O48: in each clause the command's own test in `rejection?` fails; CRC16 has none. -/
theorem unpresentableCommandsAreRefused : Obligations.UnpresentableCommandsAreRefused := by
  unfold Obligations.UnpresentableCommandsAreRefused
  intro s c rest hp
  refine ⟨?process, ?decode, ?encode, ?reset, ?crc16⟩
  case process => rintro req rfl hlen; exact step_of_rejected hp (if_neg (Nat.not_le.mpr hlen))
  case decode => rintro buf rfl hlen; exact step_of_rejected hp (if_neg (Nat.not_le.mpr hlen))
  case encode =>
    rintro f bc rfl hfc hpresent hlen hcap hbytes
    have hpay := payload_not_wf hpresent hlen hcap hbytes
    have hwf : f.wf = false := by
      obtain ⟨hfc, rfl⟩ | ⟨hfc, rfl⟩ := hfc
      · simpa [Descriptor.wf, hfc, ceil8] using hpay
      · simpa [Descriptor.wf, hfc] using hpay
    exact step_of_rejected hp (if_neg (by simp [hwf]))
  case reset =>
    rintro init rfl hbig
    have hwf : ¬ Memory.wf init = true := by rw [memory_wf_iff]; omega
    exact step_of_rejected hp (if_neg hwf)
  case crc16 => rintro data rfl; exact step_of_presentable hp rfl

end Sys2Proof.Machine

/-!
The range check of the request processor, and a round trip of registers through all three units. Each shared operation gets
the equation of the case the two claims need: a request turned away, a register read and a multiple write whose tests pass,
PROCESS of a request the encoder built, DECODE of a response PROCESS sealed.
-/

namespace Sys2Proof.Machine

/-! ### The range check and its answers -/

/-- R141: raising a status that has an exception code is turning the request away with that code. -/
theorem emit_exceptionAdu_eq_turnedAway {s : State} {e : Status} {code : Byte} (h : excCodeOf s.excCode e = some code)
    (unit fc : Byte) : s.emit (.reply e (s.exceptionAdu unit fc e)) = s.turnedAway unit fc e code := by
  simp only [State.exceptionAdu, h]; rfl

/-- R42, R43: the sum of address and quantity is taken on naturals. -/
theorem readRegBank_outOfRange {bank : List Word} {a q : Word} (h : bank.length < a.toNat + q.toNat) (rest : List Byte) :
    readRegBank bank (.fields a q rest) = .error .addressOutOfRange := by
  simp only [readRegBank, if_pos h]

/-- R127: a range inside the bank whose response fits is read. -/
theorem readRegBank_inRange {bank : List Word} {a q : Word} (hrange : a.toNat + q.toNat ≤ bank.length)
    (hcap : 5 + q.toNat * 2 ≤ 256) (rest : List Byte) :
    readRegBank bank (.fields a q rest)
      = .ok (BitVec.ofNat 8 (q.toNat * 2) :: packRegs (memRead bank a.toNat q.toNat)) := by
  simp only [readRegBank, if_neg (Nat.not_lt.mpr hrange), if_neg (Nat.not_lt.mpr hcap)]

theorem serveRHR_inRange {st : Store} {a q : Word} (hrange : a.toNat + q.toNat ≤ st.hr.length)
    (hcap : 5 + q.toNat * 2 ≤ 256) (rest : List Byte) :
    serveRHR (.fields a q rest) st
      = .ok (st, BitVec.ofNat 8 (q.toNat * 2) :: packRegs (memRead st.hr a.toNat q.toNat)) := by
  rw [serveRHR, readRegBank_inRange hrange hcap]; rfl

theorem exec_reqRHR_outOfRange {s : State} {st : Store} (hst : s.store = some st) {a q : Word}
    (h : st.hr.length < a.toNat + q.toNat) (unit : Byte) (rest : List Byte) :
    exec (.reqRHR unit (.fields a q rest)) s
      = .next (s.turnedAway unit 0x03#8 .addressOutOfRange s.excCode.addressOutOfRange) := by
  have hrule : serveRHR (.fields a q rest) st = .error .addressOutOfRange := by
    rw [serveRHR, readRegBank_outOfRange h]; rfl
  rw [← emit_exceptionAdu_eq_turnedAway rfl]
  exact serve_error hst hrule

/-- R58: a read of no register gives byte count 0 and leaves the store. -/
theorem exec_reqRHR_zero {s : State} {st : Store} (hst : s.store = some st) {a : Word} (h : a.toNat ≤ st.hr.length)
    (unit : Byte) (rest : List Byte) :
    exec (.reqRHR unit (.fields a 0x0000#16 rest)) s
      = .next { s with out := .reply .ok (sealAdu [unit, 0x03#8, 0x00#8]) } := by
  have hserve := serve_ok hst (unit := unit) (fc := 0x03#8) (serveRHR_inRange (q := 0x0000#16) h (by decide) rest)
  rw [← hst] at hserve
  exact hserve

/-- Settles O28: a bank of at most 65536 registers ends before `0xFFFF + 2`, and quantity 0 leaves `address <= size` of the
range check. -/
theorem rangeCheckDoesNotWrap : Obligations.RangeCheckDoesNotWrap := by
  unfold Obligations.RangeCheckDoesNotWrap
  intro s st unit a rest hst hwf
  obtain ⟨hsize, -⟩ := (memory_wf_iff st).mp hwf
  refine ⟨exec_reqRHR_outOfRange hst ?_ unit rest, fun h => exec_reqRHR_outOfRange (q := 0x0000#16) hst h unit rest,
    fun h => exec_reqRHR_zero hst h unit rest⟩
  show st.hr.length < 65535 + 2
  omega

/-! ### A multiple write whose tests pass -/

/-- R108, R109: a payload of `bc` bytes that fits an ADU is encoded unchanged. -/
theorem encodeMultiple_payload (s : State) (unit fc : Byte) (address quantity : Word) {p : Payload} {bc : Nat}
    (hpresent : p.present = true) (hlen : p.len.toNat = bc) (hbytes : p.bytes.length = bc) (hcap : bc ≤ 247) :
    s.encodeMultiple unit fc address quantity p bc
      = s.encoded unit fc address (wordBytes quantity ++ BitVec.ofNat 8 bc :: p.bytes) := by
  have hadu : ¬ Config.aduMax < 9 + bc := by show ¬ 256 < 9 + bc; omega
  have htake : p.bytes.take bc = p.bytes := List.take_of_length_le hbytes.le
  simp only [State.encodeMultiple, hpresent, hlen, if_neg hadu, htake, ne_eq, not_true_eq_false, reduceCtorEq, if_false]

/-- R131, R132: a request whose byte count is the derived one and counts its data writes every element of its range. -/
theorem writeMany_inRange {α : Type} {bank : List α} {derived : Nat → Nat} {unpack : List Byte → List α} {a q : Word}
    {bc : Byte} {data : List Byte} (hrange : a.toNat + q.toNat ≤ bank.length) (hbc : bc.toNat = derived q.toNat)
    (hdata : data.length = bc.toNat) :
    writeMany bank derived unpack (.fields a q (bc :: data))
      = .ok (memWrite bank a.toNat ((unpack data).take q.toNat), echoBytes a q) := by
  have htake : data.take bc.toNat = data := List.take_of_length_le hdata.le
  rw [writeMany, if_neg (Nat.not_lt.mpr hrange), if_neg (not_not.mpr hbc), if_neg hdata.not_lt, htake]

/-- R132: the registers of a request go to the bank in order. -/
theorem serveWMR_packRegs {st : Store} {a q : Word} {vs : List Word} (hq : q.toNat = vs.length)
    (hrange : a.toNat + vs.length ≤ st.hr.length) (hcap : vs.length * 2 < 256) :
    serveWMR (.fields a q (BitVec.ofNat 8 (vs.length * 2) :: packRegs vs)) st
      = .ok ({ st with hr := memWrite st.hr a.toNat vs }, echoBytes a q) := by
  have hbc : (BitVec.ofNat 8 (vs.length * 2)).toNat = vs.length * 2 := Nat.mod_eq_of_lt hcap
  rw [serveWMR, writeMany_inRange (by rwa [hq]) (by rw [hbc, hq]) (by rw [packRegs_length, hbc]),
    unpackRegs_packRegs, hq, List.take_length]
  rfl

/-! ### From one unit to the next -/

theorem resolveRequest_sealAdu (unit fc : Byte) (body : List Byte) :
    resolveRequest (sealAdu (unit :: fc :: body)) = reqRow ⟨unit, fc, body, crc16 (unit :: fc :: body)⟩ := by
  rw [sealAdu_eq_bytes, resolveRequest, splitAdu_bytes]
  exact if_pos rfl

/-- R124: a request as the encoder builds it passes the length and CRC tests and is served by its code's rule on the two
fields and the bytes after them. -/
theorem exec_process_requestAdu (k : FunctionCode) (unit : Byte) (a q : Word) (rest : List Byte) (s : State) :
    exec (.process (requestAdu unit k.byte a (wordBytes q ++ rest))) s
      = s.serve unit k.byte (serveRow k (.fields a q rest)) := by
  have hbody : parseBody (wordBytes a ++ (wordBytes q ++ rest)) = .fields a q rest := by
    simp [wordBytes, parseBody]
  rw [← exec_resolveRequest_eq_process, requestAdu, List.cons_append, List.cons_append, resolveRequest_sealAdu,
    exec_reqRow (functionCode?_byte k)]
  simp only [hbody]

/-- R160: a sealed response is decoded by its code's row. -/
theorem exec_decode_sealAdu (unit fc : Byte) (body : List Byte) (s : State) :
    exec (.decode (sealAdu (unit :: fc :: body))) s
      = exec (rspRow ⟨unit, fc, body, crc16 (unit :: fc :: body)⟩) s := by
  rw [← exec_resolveResponse_eq_decode, sealAdu_eq_bytes, resolveResponse, splitAdu_bytes]

/-- R173: a byte count that is the number of bytes after it makes all of them data. -/
theorem dataArea_byteCount {data : List Byte} (h : data.length < 256) :
    dataArea (BitVec.ofNat 8 data.length :: data) = data := by
  have hbc : (BitVec.ofNat 8 data.length).toNat = data.length := Nat.mod_eq_of_lt h
  rw [dataArea, hbc, if_pos le_rfl, List.take_length]

/-- R166: packed registers are decoded to themselves. -/
theorem regValues_packRegs {vs : List Word} (h : vs.length * 2 < 256) :
    regValues (BitVec.ofNat 8 (vs.length * 2) :: packRegs vs) = vs := by
  have hdata := dataArea_byteCount (data := packRegs vs) (by simpa using h)
  rw [packRegs_length] at hdata
  rw [regValues, hdata, unpackRegs_packRegs]

/-! ### The round trip, one lemma for each command -/

section RoundTrip

variable {s : State} {st : Store} {unit : Byte} {a n : Word} {vs : List Word}

theorem exec_encode_writeRegs {p : Payload} (hn : n.toNat = vs.length) (hmax : vs.length ≤ 123)
    (hpresent : p.present = true) (hlen : p.len.toNat = vs.length * 2) (hbytes : p.bytes = packRegs vs) :
    exec (.encode { unit := unit, fc := 0x10#8, address := a, quantity := n, payload := p }) s
      = .next (s.encoded unit 0x10#8 a (wordBytes n ++ BitVec.ofNat 8 (vs.length * 2) :: packRegs vs)) := by
  have henc := encodeMultiple_payload s unit 0x10#8 a n hpresent hlen (by simp [hbytes]) (by omega)
  rw [← hbytes, ← henc, ← hn]; rfl

theorem exec_process_writeRegs (hst : s.store = some st) (hn : n.toNat = vs.length) (hmax : vs.length ≤ 123)
    (hrange : a.toNat + vs.length ≤ st.hr.length) :
    exec (.process (requestAdu unit 0x10#8 a
        (wordBytes n ++ BitVec.ofNat 8 (vs.length * 2) :: packRegs vs))) s
      = .next { s with
          store := some { st with hr := memWrite st.hr a.toNat vs }
          out := .reply .ok (sealAdu (unit :: 0x10#8 :: echoBytes a n)) } :=
  (exec_process_requestAdu .wmr unit a n _ s).trans (serve_ok hst (serveWMR_packRegs hn hrange (by omega)))

theorem exec_encode_readRegs :
    exec (.encode { unit := unit, fc := 0x03#8, address := a, quantity := n, payload := Payload.absent }) s
      = .next (s.encoded unit 0x03#8 a (wordBytes n)) := rfl

theorem exec_process_readRegs (hst : s.store = some st) (hn : n.toNat = vs.length) (hmax : vs.length ≤ 125)
    (hrange : a.toNat + vs.length ≤ st.hr.length) (hread : memRead st.hr a.toNat vs.length = vs) :
    exec (.process (requestAdu unit 0x03#8 a (wordBytes n))) s
      = .next { s with
          store := some st
          out := .reply .ok (sealAdu (unit :: 0x03#8 :: BitVec.ofNat 8 (vs.length * 2) :: packRegs vs)) } := by
  have hrule := serveRHR_inRange (st := st) (a := a) (q := n) (by rwa [hn]) (by omega) []
  rw [hn, hread] at hrule
  exact (exec_process_requestAdu .rhr unit a n [] s).trans (serve_ok hst hrule)

theorem exec_decode_regs (h : vs.length * 2 < 256) :
    exec (.decode (sealAdu (unit :: 0x03#8 :: BitVec.ofNat 8 (vs.length * 2) :: packRegs vs))) s
      = .next (s.decodedValues unit 0x03#8
          (crc16 (unit :: 0x03#8 :: BitVec.ofNat 8 (vs.length * 2) :: packRegs vs)) vs) := by
  rw [exec_decode_sealAdu, exec_rspRow _ .rhr s rfl]
  simp only [regValues_packRegs h]

end RoundTrip

/-- Settles O53: the write puts the values into the bank, the read finds them there (R50), and the decoder unpacks what the
read packed. -/
theorem registersRoundTripThroughTheBlock : Obligations.RegistersRoundTripThroughTheBlock := by
  unfold Obligations.RegistersRoundTripThroughTheBlock
  intro s st unit a vs hst hrange hmax n payload
  have hn : n.toNat = vs.length := Nat.mod_eq_of_lt (by omega)
  have hlen : payload.len.toNat = vs.length * 2 := (Nat.mod_eq_of_lt (by omega)).trans (Nat.mul_comm ..)
  have hread := memRead_memWrite st.hr a.toNat vs hrange
  have hrange' : a.toNat + vs.length ≤ (memWrite st.hr a.toNat vs).length := by rwa [memWrite_length]
  exact ⟨_, _, _, _, _, _, _, _, _, _, exec_encode_writeRegs hn hmax rfl hlen rfl, rfl,
    exec_process_writeRegs hst hn hmax hrange, rfl, exec_encode_readRegs, rfl,
    exec_process_readRegs rfl hn (by omega) hrange' hread, rfl, exec_decode_regs (by omega), rfl, rfl⟩

end Sys2Proof.Machine

/-!
Decoder and encoder agree (spec/30_encoding.md). Each direction has one lemma for each space of rows: what a descriptor, a
request and a response decode to, and what the row each of them selects encodes to. Then the six written-out ADUs, and the
echo of a single write.
-/

namespace Sys2Proof.Machine

/-! ### From a command to its row -/

/-- A descriptor without a payload is never rejected, and its function code selects the row (R101). -/
theorem decode_descriptorOf (unit fc : Byte) (address quantity : Word) :
    decode (descriptorOf unit fc address quantity) = .ok (encRow ⟨unit, fc, address, quantity, Payload.absent⟩) :=
  decode_eq_ok_iff.mpr ⟨Laws.Presentable.descriptor_fits .., rfl⟩

theorem bytes_fit {p : AduParts} (hlen : 4 + p.body.length ≤ 256) : p.bytes.length ≤ Config.aduMax := by
  rw [AduParts.bytes_length, Nat.add_comm]; exact hlen

/-- R124: a request within 256 bytes with the right CRC is the row of its parts. -/
theorem decode_process_bytes {p : AduParts} (hlen : 4 + p.body.length ≤ 256) (hcrc : crc16 p.covered = p.crc) :
    decode (.process p.bytes) = .ok (reqRow p) := by
  refine decode_eq_ok_iff.mpr ⟨if_pos (bytes_fit hlen), ?_⟩
  rw [resolve, resolveRequest, splitAdu_bytes]
  exact (if_pos hcrc).symm

/-- R160: a response within 256 bytes is the row of its parts, whatever its CRC. -/
theorem decode_decode_bytes {p : AduParts} (hlen : 4 + p.body.length ≤ 256) :
    decode (.decode p.bytes) = .ok (rspRow p) := by
  refine decode_eq_ok_iff.mpr ⟨if_pos (bytes_fit hlen), ?_⟩
  rw [resolve, resolveResponse, splitAdu_bytes]

theorem decode_requestOf (unit fc : Byte) {body : List Byte} (hlen : 4 + body.length ≤ 256) :
    decode (requestOf unit fc body) = .ok (reqRow ⟨unit, fc, body, crc16 (unit :: fc :: body)⟩) :=
  decode_process_bytes (p := ⟨unit, fc, body, _⟩) hlen rfl

theorem decode_responseOf (unit fc : Byte) {body : List Byte} (crc : Word) (hlen : 4 + body.length ≤ 256) :
    decode (responseOf unit fc body crc) = .ok (rspRow ⟨unit, fc, body, crc⟩) :=
  decode_decode_bytes (p := ⟨unit, fc, body, crc⟩) hlen

/-- A catch-all row's function code names none of the eight. -/
theorem functionCode?_of_not_isSupported {fc : Byte} (h : (!isSupported fc) = true) : functionCode? fc = none :=
  functionCode?_eq_none_iff.mpr (by simpa using h)

/-- Settles O50: the encoding's function code selects the instruction's own row, and the body reads back as the same fields. -/
theorem decodeOfEncodeIsTheInstruction : Obligations.DecodeOfEncodeIsTheInstruction := by
  unfold Obligations.DecodeOfEncodeIsTheInstruction
  intro i hwf hencode hprocess hdecode
  cases i with
  | encode f => exact absurd rfl (hencode f)
  | process req => exact absurd rfl (hprocess req)
  | decode buf => exact absurd rfl (hdecode buf)
  | crc16 data => rfl
  | reset init => exact decode_eq_ok_iff.mpr ⟨if_pos hwf, rfl⟩
  | encRC unit a q | encRDI unit a q | encRHR unit a q | encRIR unit a q | encWSC unit a q | encWSR unit a q =>
    exact decode_descriptorOf unit _ a q
  | encWMC unit a q p | encWMR unit a q p => exact decode_eq_ok_iff.mpr ⟨if_pos hwf, rfl⟩
  | encOther unit fc a =>
    rw [encode, decode_descriptorOf, encRow, functionCode?_of_not_isSupported hwf]
  | reqRC unit b | reqRDI unit b | reqRHR unit b | reqRIR unit b | reqWSC unit b | reqWSR unit b | reqWMC unit b
  | reqWMR unit b =>
    rw [encode, decode_requestOf _ _ (Laws.Presentable.body_fits hwf)]
    conv_rhs => rw [← parseBody_bodyBytes b hwf]
    rfl
  | reqOther unit fc body =>
    obtain ⟨hfc, hfits⟩ := Bool.and_eq_true_iff.mp hwf
    rw [encode, decode_requestOf _ _ (of_decide_eq_true hfits), reqRow, functionCode?_of_not_isSupported hfc]
  | rspEXC unit fc body crc =>
    obtain ⟨h7, hfits⟩ := Bool.and_eq_true_iff.mp hwf
    rw [encode, decode_responseOf _ _ _ (of_decide_eq_true hfits), rspRow, if_pos h7]
  | rspRC unit body crc | rspRDI unit body crc | rspRHR unit body crc | rspRIR unit body crc =>
    rw [encode, decode_responseOf _ _ _ (of_decide_eq_true hwf), rspRow, if_neg (by simp)]
    rfl
  | rspWSC unit b crc | rspWSR unit b crc | rspWMC unit b crc | rspWMR unit b crc =>
    rw [encode, decode_responseOf _ _ _ (Laws.Presentable.body_fits hwf), rspRow, if_neg (by simp)]
    conv_rhs => rw [← parseBody_bodyBytes b hwf]
    rfl
  | rspOther unit fc body crc =>
    obtain ⟨hcode, hfits⟩ := Bool.and_eq_true_iff.mp hwf
    obtain ⟨hfc, h7⟩ := Bool.and_eq_true_iff.mp hcode
    rw [encode, decode_responseOf _ _ _ (of_decide_eq_true hfits), rspRow, if_neg (by simpa using h7),
      functionCode?_of_not_isSupported hfc]

/-! ### From a row back to its command -/

theorem encode_reqRow (p : AduParts) : encode (reqRow p) = requestOf p.unit p.fc p.body := by
  obtain ⟨unit, fc, body, crc⟩ := p
  cases hk : functionCode? fc with
  | none => rw [reqRow, hk]; rfl
  | some k =>
    obtain rfl := functionCode?_eq_some_iff.mp hk
    have hbody := congrArg (requestOf unit k.byte) (bodyBytes_parseBody body)
    cases k <;> exact hbody

theorem encode_rspRow (p : AduParts) : encode (rspRow p) = .decode p.bytes := by
  obtain ⟨unit, fc, body, crc⟩ := p
  by_cases h7 : fc.getLsbD 7 = true
  · rw [rspRow, if_pos h7]; rfl
  · rw [rspRow, if_neg h7]
    cases hk : functionCode? fc with
    | none => rfl
    | some k =>
      obtain rfl := functionCode?_eq_some_iff.mp hk
      have hbody := congrArg (responseOf unit k.byte · crc) (bodyBytes_parseBody body)
      cases k with
      | rc | rdi | rhr | rir => rfl
      | wsc | wsr | wmc | wmr => exact hbody

/-- Sealing the parts again gives the request, since its CRC was right. -/
theorem encode_resolveRequest (req : List Byte) : encode (resolveRequest req) = .process req := by
  cases hp : splitAdu req with
  | none => simp only [resolveRequest, hp, encode]
  | some p =>
    by_cases hcrc : crc16 p.covered = p.crc
    · obtain rfl := splitAdu_eq_some_iff.mp hp
      simp only [resolveRequest, hp, if_pos hcrc, encode_reqRow]
      rw [bytes_eq_sealAdu p hcrc]; rfl
    · simp only [resolveRequest, hp, if_neg hcrc, encode]

theorem encode_resolveResponse (buf : List Byte) : encode (resolveResponse buf) = .decode buf := by
  cases hp : splitAdu buf with
  | none => simp only [resolveResponse, hp, encode]
  | some p =>
    obtain rfl := splitAdu_eq_some_iff.mp hp
    simp only [resolveResponse, hp, encode_rspRow]

/-- A multiple write keeps the whole descriptor (R108, R109). -/
theorem encode_encRow_multiple {f : Descriptor} (h : f.fc = 0x0F#8 ∨ f.fc = 0x10#8) :
    encode (encRow f) = .encode f := by
  obtain ⟨unit, fc, a, q, p⟩ := f
  obtain rfl | rfl : fc = 0x0F#8 ∨ fc = 0x10#8 := h
  · rfl
  · rfl

/-- The other six codes come back without the payload, which they ignore (R115). -/
theorem encode_encRow_six {f : Descriptor} (h : f.fc ∈ [0x01#8, 0x02#8, 0x03#8, 0x04#8, 0x05#8, 0x06#8]) :
    encode (encRow f) = descriptorOf f.unit f.fc f.address f.quantity := by
  obtain ⟨unit, fc, a, q, p⟩ := f
  simp only [List.mem_cons, List.not_mem_nil, or_false] at h
  obtain rfl | rfl | rfl | rfl | rfl | rfl := h <;> rfl

/-- Every other code comes back without the quantity and the payload, which it ignores (R110, R115). -/
theorem encode_encRow_other {f : Descriptor} (h : functionCode? f.fc = none) :
    encode (encRow f) = descriptorOf f.unit f.fc f.address 0x0000#16 := by
  rw [encRow, h]; rfl

/-- A byte that is none of the eight codes names no function. -/
theorem functionCode?_of_notMem {fc : Byte} (hsix : fc ∉ [0x01#8, 0x02#8, 0x03#8, 0x04#8, 0x05#8, 0x06#8])
    (hF : fc ≠ 0x0F#8) (h10 : fc ≠ 0x10#8) : functionCode? fc = none := by
  cases hk : functionCode? fc with
  | none => rfl
  | some k =>
    obtain rfl := functionCode?_eq_some_iff.mp hk
    cases k with
    | rc | rdi | rhr | rir | wsc | wsr => exact absurd (by decide) hsix
    | wmc => exact absurd rfl hF
    | wmr => exact absurd rfl h10

/-- Settles O51: a request and a response come back byte for byte, and so does a descriptor but for what its row ignores. -/
theorem encodeOfDecodeIsTheCommand : Obligations.EncodeOfDecodeIsTheCommand := by
  unfold Obligations.EncodeOfDecodeIsTheCommand
  intro c i h
  obtain ⟨-, rfl⟩ := decode_eq_ok_iff.mp h
  cases c with
  | crc16 data => exact .inl rfl
  | process req => exact .inl (encode_resolveRequest req)
  | decode buf => exact .inl (encode_resolveResponse buf)
  | reset init => exact .inl rfl
  | encode f =>
    by_cases hmany : f.fc = 0x0F#8 ∨ f.fc = 0x10#8
    · exact .inl (encode_encRow_multiple hmany)
    · obtain ⟨hF, h10⟩ := not_or.mp hmany
      by_cases hsix : f.fc ∈ [0x01#8, 0x02#8, 0x03#8, 0x04#8, 0x05#8, 0x06#8]
      · exact .inr ⟨f, _, rfl, encode_encRow_six hsix, rfl, rfl, rfl, hF, h10, .inl rfl⟩
      · exact .inr ⟨f, _, rfl, encode_encRow_other (functionCode?_of_notMem hsix hF h10), rfl, rfl, rfl, hF, h10,
          .inr hsix⟩

/-! ### Written-out ADUs -/

/-- Settles O49: each ADU is written as its four parts; the three requests have the right CRC. -/
theorem adusDecodeToTheirRows : Obligations.AdusDecodeToTheirRows := by
  unfold Obligations.AdusDecodeToTheirRows
  refine ⟨?readRequest, ?writeCoils, ?writeRegister, ?coilResponse, ?exceptionResponse, ?acknowledgement⟩
  case readRequest =>
    exact decode_process_bytes (p := ⟨0x01#8, 0x03#8, [0x00#8, 0x0F#8, 0x00#8, 0x01#8], 0x09B4#16⟩)
      (by decide) (by decide +kernel)
  case writeCoils =>
    exact decode_process_bytes
      (p := ⟨0x01#8, 0x0F#8, [0x00#8, 0x14#8, 0x00#8, 0x0A#8, 0x02#8, 0xCD#8, 0x01#8], 0x7C73#16⟩)
      (by decide) (by decide +kernel)
  case writeRegister =>
    exact decode_process_bytes (p := ⟨0x01#8, 0x06#8, [0x00#8, 0x0F#8, 0x04#8, 0xD2#8], 0x543B#16⟩)
      (by decide) (by decide +kernel)
  case coilResponse =>
    exact decode_decode_bytes (p := ⟨0x01#8, 0x01#8, [0x02#8, 0xCD#8, 0x01#8], 0xAC2C#16⟩) (by decide)
  case exceptionResponse =>
    exact decode_decode_bytes (p := ⟨0x01#8, 0x83#8, [0x02#8], 0xF1C0#16⟩) (by decide)
  case acknowledgement =>
    exact decode_decode_bytes (p := ⟨0x01#8, 0x10#8, [0x00#8, 0x0A#8, 0x00#8, 0x03#8], 0x0AA0#16⟩) (by decide)

/-! ### The echo of a single write -/

/-- A request answered OK was served: its CRC is right, its code's rule succeeded on the store, and the response is the
rule's body under the request's own header. -/
theorem process_ok {req : List Byte} {s t : State} {adu : List Byte} (h : exec (.process req) s = .next t)
    (hout : t.out = .reply .ok adu) :
    ∃ (p : AduParts) (k : FunctionCode) (st st' : Store) (body : List Byte),
      req = p.bytes ∧ crc16 p.covered = p.crc ∧ functionCode? p.fc = some k ∧ s.store = some st ∧
      serveRow k (parseBody p.body) st = .ok (st', body) ∧ adu = sealAdu (p.unit :: p.fc :: body) := by
  obtain ⟨st, hst, ⟨-, rfl⟩ | ⟨p, rfl, ⟨-, rfl⟩ | ⟨hcrc, ⟨-, rfl⟩ | ⟨k, hk, ⟨e, he, rfl⟩ | ⟨st', body, hrow, rfl⟩⟩⟩⟩⟩ :=
    process_cases h
  · cases hout
  · cases hout
  · cases hout
  · cases hout
    obtain he | he := serveRow_error he <;> cases he
  · cases hout
    exact ⟨p, k, st, st', body, rfl, hcrc, hk, hst, hrow, rfl⟩

/-- R71: a single write answers the two fields it was given. -/
theorem serveRow_singleWrite_echoes {k : FunctionCode} (hk : k.byte = 0x05#8 ∨ k.byte = 0x06#8) {b : Body}
    {st st' : Store} {body : List Byte} (h : serveRow k b st = .ok (st', body)) :
    ∃ a v rest, b = .fields a v rest ∧ body = echoBytes a v := by
  cases k with
  | rc | rdi | rhr | rir | wmc | wmr => exact absurd hk (by decide)
  | wsc | wsr =>
    obtain ⟨r, hr, he⟩ := map_eq_ok h
    cases he
    obtain ⟨a, v, rest, hb, -, rfl⟩ := writeOne_ok hr
    exact ⟨a, v, rest, hb, rfl⟩

/-- A body of four bytes is its two fields. -/
theorem eq_echoBytes_of_parseBody {bytes : List Byte} (hlen : bytes.length = 4) {a v : Word} {rest : List Byte}
    (h : parseBody bytes = .fields a v rest) : bytes = echoBytes a v := by
  have hbytes : bytes = echoBytes a v ++ rest := by rw [← bodyBytes_parseBody bytes, h]; rfl
  have hrest : rest.length = 0 := by simp [hbytes, echoBytes] at hlen; omega
  rw [hbytes, List.length_eq_zero_iff.mp hrest, List.append_nil]

/-- Settles O26: the rule's body is the echo of the two fields, which are all the body an 8-byte request has. -/
theorem singleWriteEchoesTheRequest : Obligations.SingleWriteEchoesTheRequest := by
  unfold Obligations.SingleWriteEchoesTheRequest
  intro req s t adu hlen hfc h hout
  obtain ⟨p, k, st, st', body, rfl, hcrc, hk, -, hrow, rfl⟩ := process_ok h hout
  have hbody : p.body.length = 4 := by rw [AduParts.bytes_length] at hlen; omega
  have hcode : p.fc = 0x05#8 ∨ p.fc = 0x06#8 := hfc.imp Option.some.inj Option.some.inj
  rw [functionCode?_eq_some_iff.mp hk] at hcode
  obtain ⟨a, v, rest, hparse, rfl⟩ := serveRow_singleWrite_echoes hcode hrow
  rw [bytes_eq_sealAdu p hcrc, AduParts.covered, eq_echoBytes_of_parseBody hbody hparse]

end Sys2Proof.Machine

/-!
The CRC engine (spec/40_crc.md). A byte step loses nothing of the accumulator, and it takes the accumulator `y x` (high byte
first) with the byte `x` to `y`, and `y` with the byte `y` to 0; so two bytes lead to 0 from one accumulator only, the one
that holds them (R95).
-/

namespace Sys2Proof.Machine

/-! ### One byte step -/

theorem crcRounds_eq_iterate (k : Nat) (a : Word) : crcRounds k a = crcRound^[k] a := by
  induction k generalizing a with
  | zero => rfl
  | succ k ih => rw [crcRounds, ih, Function.iterate_succ_apply]

theorem crc16_append_singleton (s : List Byte) (b : Byte) : crc16 (s ++ [b]) = crcStep (crc16 s) b :=
  crc16_append s [b]

theorem crcStep_left_inj {a c : Word} {b : Byte} : crcStep a b = crcStep c b ↔ a = c :=
  ⟨fun h => (BitVec.xor_left_inj _).mp (crcRounds_injective 8 h), congrArg (crcStep · b)⟩

/-- A byte cancels an accumulator that holds it alone, and rounds keep 0. -/
theorem crcStep_setWidth_self (b : Byte) : crcStep (b.setWidth 16) b = 0x0000#16 := by
  rw [crcStep, BitVec.xor_self]; decide

/-! ### The accumulator as two bytes -/

theorem eq_be16_iff {v : Word} {y x : Byte} : v = be16 y x ↔ x = lo8 v ∧ y = hi8 v := by
  constructor
  · rintro rfl
    exact ⟨(lo8_be16 y x).symm, (hi8_be16 y x).symm⟩
  · rintro ⟨rfl, rfl⟩
    exact (be16_hi8_lo8 v).symm

theorem be16_xor_setWidth_low (y x : Byte) : be16 y x ^^^ x.setWidth 16 = y.setWidth 16 <<< 8 := by
  apply BitVec.eq_of_getLsbD_eq
  intro i hi
  rw [BitVec.getLsbD_xor, be16_getLsbD, BitVec.getLsbD_shiftLeft, BitVec.getLsbD_setWidth, BitVec.getLsbD_setWidth]
  by_cases hlow : i < 8
  · simp [hlow, hi]
  · simp [hlow, hi, BitVec.getLsbD_of_ge x i (by omega), show i - 8 < 16 by omega]

/-- A byte cancels the low byte of the accumulator; the eight rounds then only shift the high byte down. -/
theorem crcStep_be16_low (y x : Byte) : crcStep (be16 y x) x = y.setWidth 16 := by
  have hclear : ∀ i, i < 8 → (y.setWidth 16 <<< 8).getLsbD i = false := fun i hi => by
    simp [BitVec.getLsbD_shiftLeft, hi]
  rw [crcStep, be16_xor_setWidth_low, crcRounds_of_low_clear 8 _ hclear]
  apply BitVec.eq_of_getLsbD_eq
  intro i hi
  by_cases hlow : i < 8
  · simp [hlow, hi, show 8 + i < 16 by omega]
  · simp [BitVec.getLsbD_of_ge y i (by omega), show ¬ 8 + i < 16 by omega]

/-! ### The claims -/

theorem exec_crc16 (data : List Byte) (s : State) : exec (.crc16 data) s = .next (s.emit (.crc (crc16 data))) := rfl

/-- Settles O2: the two byte steps are undone one after the other. -/
theorem crc16IsZeroExactlyOnSealedSequences : Obligations.Crc16IsZeroExactlyOnSealedSequences := by
  unfold Obligations.Crc16IsZeroExactlyOnSealedSequences
  intro s x y
  calc crc16 (s ++ [x, y]) = 0x0000#16
      ↔ crcStep (crcStep (crc16 s) x) y = crcStep (y.setWidth 16) y := by
        rw [crc16_append, crcStep_setWidth_self]; rfl
    _ ↔ crcStep (crc16 s) x = crcStep (be16 y x) x := by rw [crcStep_left_inj, crcStep_be16_low]
    _ ↔ crc16 s = be16 y x := crcStep_left_inj
    _ ↔ x = lo8 (crc16 s) ∧ y = hi8 (crc16 s) := eq_be16_iff

/-- Settles O1: a byte continues the CRC by one byte step, whose rounds are the round iterated. -/
theorem crc16RunsEightRoundsPerByte : Obligations.Crc16RunsEightRoundsPerByte := by
  unfold Obligations.Crc16RunsEightRoundsPerByte
  refine ⟨rfl, fun s b => ?_⟩
  rw [crc16_append_singleton, crcStep, crcRounds_eq_iterate]
  rfl

/-- Settles O3: each vector is computed. -/
theorem crc16OfKnownMessages : Obligations.Crc16OfKnownMessages := by
  unfold Obligations.Crc16OfKnownMessages
  refine ⟨?empty, ?zero, ?twoZeros, ?digits, ?readRequest⟩
  case empty => rfl
  case zero => decide +kernel
  case twoZeros => decide +kernel
  case digits => decide +kernel
  case readRequest => decide +kernel

/-- Settles O4: CRC16 only emits, and emitting replaces the outputs alone. -/
theorem crc16CommandAnswersTheCrc : Obligations.Crc16CommandAnswersTheCrc := by
  unfold Obligations.Crc16CommandAnswersTheCrc
  intro data s
  rw [exec_crc16, State.emit]

end Sys2Proof.Machine

/-!
The request encoder (spec/41_encoder.md). A descriptor's command does what the row does that its function code selects
(`row_and_command`), and a row delivers a sealed ADU with its own tail after the address; only the two multiple writes
have tests, and only they read the payload.
-/

namespace Sys2Proof.Machine

/-! ### Rows and commands -/

/-- Settles O19: one lemma for each of the three commands, the request's with or without a store. -/
theorem commandsDoWhatTheirRowsDo : Obligations.CommandsDoWhatTheirRowsDo := by
  unfold Obligations.CommandsDoWhatTheirRowsDo
  intro s f req buf
  exact ⟨(exec_encRow_eq_encode f s).symm, (exec_resolveRequest_eq_process req s).symm,
    (exec_resolveResponse_eq_decode buf s).symm⟩

/-- What a row answers, ENCODE answers on every descriptor that selects the row. -/
theorem row_and_command {f : Descriptor} {fc : Byte} {i : Instr} {s t : State} (hrow : exec i s = .next t)
    (hsel : f.fc = fc → encRow f = i) :
    exec i s = .next t ∧ (f.fc = fc → exec (.encode f) s = .next t) :=
  ⟨hrow, fun hfc => by rw [← exec_encRow_eq_encode, hsel hfc, hrow]⟩

/-- Settles O5: each of the five rows writes its own function code and the quantity as it stands, with no test. -/
theorem encodeQuantityForms : Obligations.EncodeQuantityForms := by
  unfold Obligations.EncodeQuantityForms
  intro f s fc i hi
  simp only [List.mem_cons, List.not_mem_nil, or_false, Prod.mk.injEq] at hi
  obtain ⟨rfl, rfl⟩ | ⟨rfl, rfl⟩ | ⟨rfl, rfl⟩ | ⟨rfl, rfl⟩ | ⟨rfl, rfl⟩ := hi <;>
    exact row_and_command rfl fun hfc => by rw [encRow, hfc]; rfl

/-- R106: the value field of a single-coil write. -/
theorem wordBytes_coilValue (q : Word) :
    wordBytes (if q ≠ 0#16 then 0xFF00#16 else 0x0000#16) = [if q = 0x0000#16 then 0x00#8 else 0xFF#8, 0x00#8] := by
  by_cases hq : q = 0#16
  · rw [if_neg (not_not.mpr hq), if_pos hq]; rfl
  · rw [if_pos hq, if_neg hq]; rfl

theorem exec_encWSC (unit : Byte) (address quantity : Word) (s : State) :
    exec (.encWSC unit address quantity) s
      = .next (s.encoded unit 0x05#8 address [if quantity = 0x0000#16 then 0x00#8 else 0xFF#8, 0x00#8]) := by
  rw [← wordBytes_coilValue]; rfl

/-- Settles O6: only the high byte of the value field depends on the quantity. -/
theorem encodeSingleCoilForm : Obligations.EncodeSingleCoilForm := by
  unfold Obligations.EncodeSingleCoilForm
  intro f s
  exact row_and_command (exec_encWSC ..) fun hfc => by rw [encRow, hfc]; rfl

/-! ### The two multiple writes -/

/-- R108, R109, R113: the three tests raise the same status, so they are one test. -/
theorem encodeMultiple_eq (s : State) (unit fc : Byte) (address quantity : Word) (p : Payload) (bc : Nat) :
    s.encodeMultiple unit fc address quantity p bc
      = if p.present = false ∨ p.len.toNat ≠ bc ∨ 256 < 9 + bc then s.emit (.reply .invalidValue [])
        else s.encoded unit fc address (wordBytes quantity ++ BitVec.ofNat 8 bc :: p.bytes.take bc) := by
  rw [ite_or, ite_or]; rfl

/-- Settles O7: both rows are the shared multiple write, each with its own code and byte count. -/
theorem encodeMultipleWriteForms : Obligations.EncodeMultipleWriteForms := by
  unfold Obligations.EncodeMultipleWriteForms
  intro f s fc bc i hi
  simp only [List.mem_cons, List.not_mem_nil, or_false, Prod.mk.injEq] at hi
  obtain ⟨rfl, rfl, rfl⟩ | ⟨rfl, rfl, rfl⟩ := hi <;>
    exact row_and_command (congrArg Host.Outcome.next (encodeMultiple_eq ..)) fun hfc => by rw [encRow, hfc]; rfl

/-! ### Every other function code -/

/-- R110: a byte outside the eight names no function. -/
theorem functionCode?_of_notMem_supported {fc : Byte}
    (h : fc ∉ [0x01#8, 0x02#8, 0x03#8, 0x04#8, 0x05#8, 0x06#8, 0x0F#8, 0x10#8]) : functionCode? fc = none :=
  functionCode?_eq_none_iff.mpr (by simpa [isSupported, and_assoc] using h)

/-- Settles O8: such a code selects the row that appends nothing to the address. -/
theorem encodeUnsupportedForm : Obligations.EncodeUnsupportedForm := by
  unfold Obligations.EncodeUnsupportedForm
  intro f s hfc
  have hsel : encRow f = .encOther f.unit f.fc f.address := by
    rw [encRow, functionCode?_of_notMem_supported hfc]
  refine ⟨rfl, ?_⟩
  rw [← exec_encRow_eq_encode, hsel]; rfl

/-- R115: the payload changes the row of the two multiple writes only. -/
theorem encRow_with_payload {f : Descriptor} (hF : f.fc ≠ 0x0F#8) (h10 : f.fc ≠ 0x10#8) (p : Payload) :
    encRow { f with payload := p } = encRow f := by
  simp only [encRow]
  cases hk : functionCode? f.fc with
  | none => rfl
  | some k =>
    cases k with
    | rc | rdi | rhr | rir | wsc | wsr => rfl
    | wmc => exact absurd (functionCode?_eq_some_iff.mp hk) hF
    | wmr => exact absurd (functionCode?_eq_some_iff.mp hk) h10

/-- Settles O10: the row is the same with either payload. -/
theorem encodeIgnoresPayloadElsewhere : Obligations.EncodeIgnoresPayloadElsewhere := by
  unfold Obligations.EncodeIgnoresPayloadElsewhere
  intro f p s hF h10
  rw [← exec_encRow_eq_encode, encRow_with_payload hF h10, exec_encRow_eq_encode]

/-! ### What ENCODE can answer -/

/-- An ADU of an OK answer (R100, R111): 6 to 256 bytes, the last two the CRC of those before, low byte first. -/
def FitsAndIsSealed (adu : List Byte) : Prop :=
  6 ≤ adu.length ∧ adu.length ≤ 256 ∧ ∃ front, adu = front ++ [lo8 (crc16 front), hi8 (crc16 front)]

theorem requestAdu_fitsAndIsSealed (unit fc : Byte) (address : Word) {tail : List Byte} (h : tail.length ≤ 250) :
    FitsAndIsSealed (requestAdu unit fc address tail) := by
  refine ⟨?_, ?_, _, rfl⟩
  · rw [requestAdu_length]; omega
  · rw [requestAdu_length]; omega

/-- `t` is `s` with an OK answer as its outputs. -/
def AnswersSealed (s t : State) : Prop := ∃ adu, FitsAndIsSealed adu ∧ t = s.emit (.reply .ok adu)

theorem encoded_answersSealed (s : State) (unit fc : Byte) (address : Word) {tail : List Byte}
    (h : tail.length ≤ 250) : AnswersSealed s (s.encoded unit fc address tail) :=
  ⟨_, requestAdu_fitsAndIsSealed unit fc address h, rfl⟩

/-- The capacity test leaves at most 250 bytes after the address (R113). -/
theorem encodeMultiple_answers (s : State) (unit fc : Byte) (address quantity : Word) (p : Payload) (bc : Nat) :
    AnswersSealed s (s.encodeMultiple unit fc address quantity p bc) ∨
      s.encodeMultiple unit fc address quantity p bc = s.emit (.reply .invalidValue []) := by
  obtain h | ⟨-, -, hbc, h⟩ := encodeMultiple_cases s unit fc address quantity p bc
  · exact .inr h
  · rw [h]
    refine .inl (encoded_answersSealed _ _ _ _ ?_)
    simp only [List.length_append, wordBytes_length, List.length_cons, List.length_take]
    omega

/-- Everything an ENC row can answer: a sealed ADU, or INVALID_VALUE from one of the two multiple writes. -/
theorem exec_encRow_cases (f : Descriptor) (s : State) :
    ∃ t, exec (encRow f) s = .next t ∧
      (AnswersSealed s t ∨ (t = s.emit (.reply .invalidValue []) ∧ (f.fc = 0x0F#8 ∨ f.fc = 0x10#8))) := by
  unfold encRow
  cases hk : functionCode? f.fc with
  | none => exact ⟨_, rfl, .inl (encoded_answersSealed _ _ _ _ (Nat.zero_le _))⟩
  | some k =>
    have hfc := functionCode?_eq_some_iff.mp hk
    cases k with
    | rc | rdi | rhr | rir | wsc | wsr =>
      exact ⟨_, rfl, .inl (encoded_answersSealed _ _ _ _ (by rw [wordBytes_length]; omega))⟩
    | wmc => exact ⟨_, rfl, (encodeMultiple_answers ..).imp_right fun h => ⟨h, .inl hfc⟩⟩
    | wmr => exact ⟨_, rfl, (encodeMultiple_answers ..).imp_right fun h => ⟨h, .inr hfc⟩⟩

/-- Settles O9: the row ENCODE runs answers in one of the two ways. -/
theorem encodedAduFitsAndIsSealed : Obligations.EncodedAduFitsAndIsSealed := by
  unfold Obligations.EncodedAduFitsAndIsSealed
  intro f s
  rw [← exec_encRow_eq_encode]
  obtain ⟨t, ht, ⟨adu, hadu, rfl⟩ | ⟨rfl, hfc⟩⟩ := exec_encRow_cases f s
  · exact ⟨.ok, adu, ht, .inl ⟨rfl, hadu⟩⟩
  · exact ⟨.invalidValue, [], ht, .inr ⟨rfl, rfl, hfc⟩⟩

end Sys2Proof.Machine

/-!
The request processor's answers (spec/42_processor.md). A request is turned away before a row is reached, by a row's own rule,
or served. `process_rejected` says once what a status other than OK comes with (R121, R122, R135, R141).
-/

namespace Sys2Proof.Machine

/-! ### Before the dispatch -/

/-- R44: the last two bytes of an ADU are its CRC field, low byte first. -/
theorem crcBytes_le16 (x y : Byte) : crcBytes (le16 x y) = [x, y] := by
  rw [crcBytes, le16_eq_be16, lo8_be16, hi8_be16]

/-- Settles O11: a short request does not split, and a longer one splits into the bytes the CRC covers and its CRC field. -/
theorem processTestsLengthThenCrc : Obligations.ProcessTestsLengthThenCrc := by
  unfold Obligations.ProcessTestsLengthThenCrc
  intro req s st hst
  refine ⟨fun hlen => exec_process_short hst (splitAdu_eq_none_iff.mpr hlen), ?_⟩
  rintro covered x y rfl hlen hcrc
  match covered, hlen with
  | unit :: fc :: body, _ =>
    have hsplit := splitAdu_bytes ⟨unit, fc, body, le16 x y⟩
    rw [AduParts.bytes, crcBytes_le16] at hsplit
    exact exec_process_crcError hst hsplit hcrc.symm

/-! ### A request turned away -/

/-- R135, R141: a rule that raises a status turns the request away with the status's exception code. -/
theorem serve_turnedAway {s : State} {st : Store} (hst : s.store = some st) {unit fc : Byte}
    {f : Store → Except Status (Store × List Byte)} {e : Status} (hf : f st = .error e) {code : Byte}
    (hcode : excCodeOf s.excCode e = some code) : s.serve unit fc f = .next (s.turnedAway unit fc e code) := by
  rw [serve_error hst hf, emit_exceptionAdu_eq_turnedAway hcode]

/-- Settles O18: the row raises the status whatever the store is, and PROCESS selects that row. -/
theorem unsupportedFunctionIsReported : Obligations.UnsupportedFunctionIsReported := by
  unfold Obligations.UnsupportedFunctionIsReported
  intro s st unit fc body hst hfc covered t
  have hrow : exec (.reqOther unit fc body) s = .next t :=
    serve_turnedAway (f := fun _ => .error .unsupportedFunction) hst rfl rfl
  refine ⟨hrow, ?_⟩
  have hsel : resolveRequest (sealAdu covered) = .reqOther unit fc body := by
    rw [resolveRequest_sealAdu, reqRow, functionCode?_of_notMem_supported hfc]
  rw [← hrow, ← hsel]
  exact (exec_resolveRequest_eq_process ..).symm

/-- A request not answered OK changed the outputs alone. It was too short or had a wrong CRC, and got no byte; or it failed a
later test, whose status has an exception code, and got the exception ADU. -/
theorem process_rejected {req : List Byte} {s t : State} {e : Status} {adu : List Byte}
    (h : exec (.process req) s = .next t) (hout : t.out = .reply e adu) (he : e ≠ .ok) :
    t = s.emit (.reply e adu) ∧
      (((req.length < 4 ∨ e = .crcError) ∧ adu = []) ∨
       ∃ p : AduParts, req = p.bytes ∧ (e = .unsupportedFunction ∨ e.ofRule) ∧ adu = s.exceptionAdu p.unit p.fc e) := by
  obtain ⟨st, -, ⟨hlen, rfl⟩ | ⟨p, rfl, ⟨-, rfl⟩ | ⟨-, ⟨-, rfl⟩ | ⟨k, -, ⟨e, hrow, rfl⟩ | ⟨st', body, -, rfl⟩⟩⟩⟩⟩ :=
    process_cases h
  · cases hout; exact ⟨rfl, .inl ⟨.inl hlen, rfl⟩⟩
  · cases hout; exact ⟨rfl, .inl ⟨.inr rfl, rfl⟩⟩
  · cases hout; exact ⟨rfl, .inr ⟨p, rfl, .inl rfl, rfl⟩⟩
  · cases hout; exact ⟨rfl, .inr ⟨p, rfl, .inr (serveRow_error hrow), rfl⟩⟩
  · cases hout; exact absurd rfl he

/-- Settles O22: with the option off there is no exception ADU, and a rejected request changes the outputs alone. -/
theorem noResponseBytesOnFailureByDefault : Obligations.NoResponseBytesOnFailureByDefault := by
  unfold Obligations.NoResponseBytesOnFailureByDefault
  intro req s t e adu hoff h hout he
  obtain ⟨rfl, ⟨-, hnone⟩ | ⟨p, -, -, hadu⟩⟩ := process_rejected h hout he
  · exact ⟨hnone, rfl⟩
  · exact ⟨hadu.trans (exceptionAdu_off s hoff ..), rfl⟩

/-- R72, R141: with the option on, a status that has an exception code gets the sealed RS-E ADU. -/
theorem exceptionAdu_on {s : State} (hon : s.excAduEn = true) {e : Status} {code : Byte}
    (hcode : excCodeOf s.excCode e = some code) (unit fc : Byte) :
    s.exceptionAdu unit fc e = sealAdu [unit, fc ||| 0x80#8, code] := by
  simp only [State.exceptionAdu, if_pos hon, hcode]

/-- R12: the three statuses raised after the CRC test are the ones `EXC_CODE` has a byte for. -/
theorem excCodeOf_of_rejected {m : ExcCode} {e : Status} (he : e = .unsupportedFunction ∨ e.ofRule) :
    ∃ code, excCodeOf m e = some code ∧
      (e, code) ∈ [(Status.unsupportedFunction, m.unsupportedFunction),
        (Status.addressOutOfRange, m.addressOutOfRange), (Status.invalidValue, m.invalidValue)] := by
  obtain rfl | rfl | rfl := he
  · exact ⟨_, rfl, by simp⟩
  · exact ⟨_, rfl, by simp⟩
  · exact ⟨_, rfl, by simp⟩

/-- Settles O23: a request rejected after the CRC test has at least four bytes, whose first two head the exception ADU. -/
theorem exceptionAduWhenEnabled : Obligations.ExceptionAduWhenEnabled := by
  unfold Obligations.ExceptionAduWhenEnabled
  intro req s t e adu hon h hout he
  obtain ⟨rfl, ⟨hearly, hnone⟩ | ⟨p, rfl, hlate, hadu⟩⟩ := process_rejected h hout he
  · exact ⟨rfl, by rwa [if_pos hearly]⟩
  · have hnotEarly : ¬ (p.bytes.length < 4 ∨ e = .crcError) := by
      rw [AduParts.bytes_length]
      obtain rfl | rfl | rfl := hlate <;> simp
    obtain ⟨code, hcode, hmem⟩ := excCodeOf_of_rejected (m := s.excCode) hlate
    refine ⟨rfl, ?_⟩
    rw [if_neg hnotEarly]
    exact ⟨code, hmem, hadu.trans (exceptionAdu_on hon hcode ..)⟩

/-! ### A request answered OK -/

/-- Settles O24: the response is the request's header and the rule's 1 to 252 body bytes, sealed. -/
theorem responseIsSealedAndFits : Obligations.ResponseIsSealedAndFits := by
  unfold Obligations.ResponseIsSealedAndFits
  intro req s t adu h hout
  obtain ⟨p, k, st, st', body, rfl, -, -, -, hrow, rfl⟩ := process_ok h hout
  obtain ⟨hmin, hmax, -⟩ := serveRow_ok hrow
  have hlen : (sealAdu (p.unit :: p.fc :: body)).length = body.length + 4 := by simp
  exact ⟨by omega, by omega, rfl, rfl, _, rfl⟩

end Sys2Proof.Machine

/-!
The eight request rows (spec/42_processor.md R125 to R132). Each shared rule gets an equation for each of its tests; a row
turns the request away with the status its rule raises (`serve_turnedAway`), or answers the body its rule gives. What is
read and written is then said element by element.
-/

namespace Sys2Proof.Machine

/-! ### Reading a bank -/

/-- What a read leaves: the status its rule raised and the exception ADU, or the sealed response; the store as it was. -/
def State.answerRead (s : State) (unit fc : Byte) : Except Status (List Byte) → State
  | .error e => s.emit (.reply e (s.exceptionAdu unit fc e))
  | .ok body => s.emit (.reply .ok (sealAdu (unit :: fc :: body)))

theorem answerRead_error {s : State} {e : Status} {code : Byte} (hcode : excCodeOf s.excCode e = some code)
    (unit fc : Byte) : s.answerRead unit fc (.error e) = s.turnedAway unit fc e code :=
  emit_exceptionAdu_eq_turnedAway hcode unit fc

theorem serve_read {s : State} {st : Store} (hst : s.store = some st) (unit fc : Byte)
    {f : Store → Except Status (Store × List Byte)} {r : Except Status (List Byte)}
    (hf : f st = r.map fun bytes => (st, bytes)) : s.serve unit fc f = .next (s.answerRead unit fc r) := by
  cases r with
  | error e => exact serve_error hst hf
  | ok body =>
    rw [serve_ok hst hf, ← hst]
    rfl

/-- R125, R126: the two rows are the one rule, each on its own bank. -/
theorem exec_bitRead {s : State} {st : Store} (hst : s.store = some st) {unit fc : Byte} {body : Body} {i : Instr}
    {bank : List Bool}
    (hi : (fc, i, bank) ∈ [(0x01#8, Instr.reqRC unit body, st.co), (0x02#8, Instr.reqRDI unit body, st.di)]) :
    exec i s = .next (s.answerRead unit fc (readBitBank bank body)) := by
  simp only [List.mem_cons, List.not_mem_nil, or_false, Prod.mk.injEq] at hi
  obtain ⟨rfl, rfl, rfl⟩ | ⟨rfl, rfl, rfl⟩ := hi
  · exact serve_read (f := serveRC body) hst unit _ rfl
  · exact serve_read (f := serveRDI body) hst unit _ rfl

/-- R127, R128: the two rows are the one rule, each on its own bank. -/
theorem exec_regRead {s : State} {st : Store} (hst : s.store = some st) {unit fc : Byte} {body : Body} {i : Instr}
    {bank : List Word}
    (hi : (fc, i, bank) ∈ [(0x03#8, Instr.reqRHR unit body, st.hr), (0x04#8, Instr.reqRIR unit body, st.ir)]) :
    exec i s = .next (s.answerRead unit fc (readRegBank bank body)) := by
  simp only [List.mem_cons, List.not_mem_nil, or_false, Prod.mk.injEq] at hi
  obtain ⟨rfl, rfl, rfl⟩ | ⟨rfl, rfl, rfl⟩ := hi
  · exact serve_read (f := serveRHR body) hst unit _ rfl
  · exact serve_read (f := serveRIR body) hst unit _ rfl

/-- R125: the two tests of a bit read that has its fields, and the body it answers. -/
theorem readBitBank_fields (bank : List Bool) (a q : Word) (rest : List Byte) :
    readBitBank bank (.fields a q rest) =
      if bank.length < a.toNat + q.toNat then .error .addressOutOfRange
      else if 256 < 5 + (q.toNat + 7) / 8 then .error .invalidValue
      else .ok (BitVec.ofNat 8 ((q.toNat + 7) / 8) :: packBits (memRead bank a.toNat q.toNat)) := rfl

/-- R127: the two tests of a register read that has its fields, and the body it answers. -/
theorem readRegBank_fields (bank : List Word) (a q : Word) (rest : List Byte) :
    readRegBank bank (.fields a q rest) =
      if bank.length < a.toNat + q.toNat then .error .addressOutOfRange
      else if 256 < 5 + q.toNat * 2 then .error .invalidValue
      else .ok (BitVec.ofNat 8 (q.toNat * 2) :: packRegs (memRead bank a.toNat q.toNat)) := rfl

/-! ### The data of a read, element by element -/

/-- R45, R139: bit `k` of packed data is bit `k`, and 0 from the last bit on. -/
theorem packBits_bit (bits : List Bool) {k : Nat} (hk : k < 8 * ceil8 bits.length) :
    ((packBits bits).getD (k / 8) 0x00#8).getLsbD (k % 8) = bits.getD k false := by
  have hbit := unpackBits_packBits_getElem? bits k
  rw [unpackBits_getElem?, if_pos hk, Option.map_eq_some_iff] at hbit
  obtain ⟨b, hb, hbit⟩ := hbit
  rw [List.getD_eq_getElem?_getD, hb]
  exact hbit

/-- R70: register `k` of packed data is its bytes `2k` and `2k + 1`, the high byte first. -/
theorem packRegs_getElem? (vs : List Word) (k : Nat) :
    (packRegs vs)[2 * k]? = vs[k]?.map hi8 ∧ (packRegs vs)[2 * k + 1]? = vs[k]?.map lo8 := by
  induction vs generalizing k with
  | nil => exact ⟨rfl, rfl⟩
  | cons v vs ih =>
    cases k with
    | zero => simp
    | succ k => simpa [Nat.mul_succ] using ih k

/-- Settles O12: both rows are the shared bit read; its tests stand in the statement's order, and the data are the packed
elements of the range. -/
theorem readBitFunctions : Obligations.ReadBitFunctions := by
  unfold Obligations.ReadBitFunctions
  intro s st unit body fc i bank hst hi
  rw [exec_bitRead hst hi]
  cases body with
  | short bytes => exact congrArg _ (answerRead_error rfl unit fc)
  | fields a q rest =>
    simp only [readBitBank_fields]
    split_ifs with hrange hcap
    · rw [answerRead_error rfl]
    · rw [answerRead_error rfl]
    · have hread : (memRead bank a.toNat q.toNat).length = q.toNat := memRead_length _ _ _ (Nat.not_lt.mp hrange)
      have hbit := fun k => packBits_bit (memRead bank a.toNat q.toNat) (k := k)
      rw [hread, ceil8] at hbit
      refine ⟨packBits (memRead bank a.toNat q.toNat), rfl, by rw [packBits_length, hread, ceil8], fun k hk => ?_,
        fun k hk hpad => ?_⟩
      · rw [hbit k (by omega), List.getD_eq_getElem?_getD, memRead_getElem? _ _ _ _ hk, ← List.getD_eq_getElem?_getD]
      · rw [hbit k hpad, List.getD_eq_default _ _ (by omega)]

/-- Settles O13: both rows are the shared register read; the data are the packed registers of the range. -/
theorem readRegisterFunctions : Obligations.ReadRegisterFunctions := by
  unfold Obligations.ReadRegisterFunctions
  intro s st unit body fc i bank hst hi
  rw [exec_regRead hst hi]
  cases body with
  | short bytes => exact congrArg _ (answerRead_error rfl unit fc)
  | fields a q rest =>
    simp only [readRegBank_fields]
    split_ifs with hrange hcap
    · rw [answerRead_error rfl]
    · rw [answerRead_error rfl]
    · have hread : (memRead bank a.toNat q.toNat).length = q.toNat := memRead_length _ _ _ (Nat.not_lt.mp hrange)
      refine ⟨packRegs (memRead bank a.toNat q.toNat), rfl, by rw [packRegs_length, hread], fun k hk => ?_⟩
      rw [← memRead_getElem? _ _ _ _ hk]
      exact packRegs_getElem? _ k

/-! ### Writing one element -/

theorem memWrite_singleton_getElem? {α : Type} {bank : List α} {a : Nat} (ha : a < bank.length) (v : α) (k : Nat) :
    (memWrite bank a [v])[k]? = if k = a then some v else bank[k]? := by
  rw [memWrite, memWrite, List.getElem?_set]
  simp only [eq_comm, ha, if_true]

/-- R129, R130: the range test of a single write that has its fields, and the element it writes. -/
theorem writeOne_fields {α : Type} (bank : List α) (value : Word → α) (a v : Word) (rest : List Byte) :
    writeOne bank value (.fields a v rest) =
      if bank.length ≤ a.toNat then .error .addressOutOfRange
      else .ok (memWrite bank a.toNat [value v], echoBytes a v) := by
  simp only [writeOne, Nat.lt_add_one_iff]

/-- Settles O14: one coil is written, with the truth of `v = 0xFF00`. -/
theorem writeSingleCoilFunction : Obligations.WriteSingleCoilFunction := by
  unfold Obligations.WriteSingleCoilFunction
  intro s st unit body hst
  cases body with
  | short bytes => exact serve_turnedAway (f := serveWSC (.short bytes)) hst rfl rfl
  | fields a v rest =>
    have hrule : serveWSC (.fields a v rest) st = _ := congrArg (Except.map _) (writeOne_fields ..)
    dsimp only
    split_ifs at hrule ⊢ with hrange
    · exact serve_turnedAway hst hrule rfl
    · exact ⟨_, serve_ok hst hrule, memWrite_length .., memWrite_singleton_getElem? (Nat.not_le.mp hrange) _⟩

/-- Settles O15: one register is written, with the value as it stands. -/
theorem writeSingleRegisterFunction : Obligations.WriteSingleRegisterFunction := by
  unfold Obligations.WriteSingleRegisterFunction
  intro s st unit body hst
  cases body with
  | short bytes => exact serve_turnedAway (f := serveWSR (.short bytes)) hst rfl rfl
  | fields a v rest =>
    have hrule : serveWSR (.fields a v rest) st = _ := congrArg (Except.map _) (writeOne_fields ..)
    dsimp only
    split_ifs at hrule ⊢ with hrange
    · exact serve_turnedAway hst hrule rfl
    · exact ⟨_, serve_ok hst hrule, memWrite_length .., memWrite_singleton_getElem? (Nat.not_le.mp hrange) _⟩

/-! ### Writing a range -/

/-- R131, R132: the three tests of a multiple write that has its fixed fields, and the elements it writes. -/
theorem writeMany_fields {α : Type} (bank : List α) (derived : Nat → Nat) (unpack : List Byte → List α) (a q : Word)
    (bc : Byte) (data : List Byte) :
    writeMany bank derived unpack (.fields a q (bc :: data)) =
      if bank.length < a.toNat + q.toNat then .error .addressOutOfRange
      else if bc.toNat ≠ derived q.toNat then .error .invalidValue
      else if data.length < bc.toNat then .error .invalidValue
      else .ok (memWrite bank a.toNat ((unpack (data.take bc.toNat)).take q.toNat), echoBytes a q) := rfl

/-- What the first `n` of enough values leave in every element, `value i` being the `i`-th of them. -/
theorem memWrite_take_getElem? {α : Type} {bank vs : List α} {a n : Nat} (hrange : a + n ≤ bank.length)
    (hlen : n ≤ vs.length) {value : Nat → α} (hvalue : ∀ i, i < n → vs[i]? = some (value i)) (k : Nat) :
    (memWrite bank a (vs.take n))[k]? = if a ≤ k ∧ k < a + n then some (value (k - a)) else bank[k]? := by
  have htake : (vs.take n).length = n := List.length_take_of_le hlen
  rw [memWrite_getElem? _ _ _ (by rwa [htake]), htake]
  by_cases hk : a ≤ k ∧ k < a + n
  · have hlt : k - a < n := by omega
    rw [if_pos hk, if_pos hk, List.getElem?_take_of_lt hlt, hvalue _ hlt]
  · rw [if_neg hk, if_neg hk]

theorem take_getElem?_eq_getD {data : List Byte} {n i : Nat} (hi : i < n) (hn : n ≤ data.length) :
    (data.take n)[i]? = some (data.getD i 0x00#8) := by
  rw [List.getElem?_take_of_lt hi, List.getD_eq_getElem _ _ (by omega), List.getElem?_eq_getElem]

/-- R131: bit `i` of the first `n` data bytes. -/
theorem unpackBits_take_getElem? {data : List Byte} {n : Nat} (hn : n ≤ data.length) {i : Nat} (hi : i < 8 * n) :
    (unpackBits (data.take n))[i]? = some ((data.getD (i / 8) 0x00#8).getLsbD (i % 8)) := by
  rw [unpackBits_getElem?, take_getElem?_eq_getD (by omega) hn, Option.map_some]

/-- R132: register `i` of the first `n` data bytes. -/
theorem unpackRegs_take_getElem? {data : List Byte} {n : Nat} (hn : n ≤ data.length) {i : Nat} (hi : 2 * i + 1 < n) :
    (unpackRegs (data.take n))[i]? = some (be16 (data.getD (2 * i) 0x00#8) (data.getD (2 * i + 1) 0x00#8)) := by
  have hlen : (data.take n).length = n := List.length_take_of_le hn
  rw [unpackRegs_getElem? _ _ (by rwa [hlen]), List.getElem_take, List.getElem_take, List.getD_eq_getElem,
    List.getD_eq_getElem]

/-- Settles O16: the rule's tests stand in the statement's order; the bits written are those of the data bytes. -/
theorem writeMultipleCoilsFunction : Obligations.WriteMultipleCoilsFunction := by
  unfold Obligations.WriteMultipleCoilsFunction
  intro s st unit body hst bad
  match body with
  | .short bytes => exact serve_turnedAway (f := serveWMC (.short bytes)) hst rfl rfl
  | .fields a q [] => exact serve_turnedAway (f := serveWMC (.fields a q [])) hst rfl rfl
  | .fields a q (bc :: data) =>
    have hrule : serveWMC (.fields a q (bc :: data)) st = _ := congrArg (Except.map _) (writeMany_fields ..)
    rw [ceil8] at hrule
    dsimp only
    split_ifs at hrule ⊢ with hrange hbc hdata
    · exact serve_turnedAway hst hrule rfl
    · exact serve_turnedAway hst hrule rfl
    · exact serve_turnedAway hst hrule rfl
    · have hlen : bc.toNat ≤ data.length := Nat.not_lt.mp hdata
      rw [not_not] at hbc
      refine ⟨_, serve_ok hst hrule, memWrite_length .., memWrite_take_getElem? (Nat.not_lt.mp hrange) ?_ fun i hi =>
        unpackBits_take_getElem? hlen (by omega)⟩
      rw [unpackBits_length, List.length_take_of_le hlen]; omega

/-- Settles O17: the rule's tests stand in the statement's order; the registers written are those of the data bytes. -/
theorem writeMultipleRegistersFunction : Obligations.WriteMultipleRegistersFunction := by
  unfold Obligations.WriteMultipleRegistersFunction
  intro s st unit body hst bad
  match body with
  | .short bytes => exact serve_turnedAway (f := serveWMR (.short bytes)) hst rfl rfl
  | .fields a q [] => exact serve_turnedAway (f := serveWMR (.fields a q [])) hst rfl rfl
  | .fields a q (bc :: data) =>
    have hrule : serveWMR (.fields a q (bc :: data)) st = _ := congrArg (Except.map _) (writeMany_fields ..)
    dsimp only
    split_ifs at hrule ⊢ with hrange hbc hdata
    · exact serve_turnedAway hst hrule rfl
    · exact serve_turnedAway hst hrule rfl
    · exact serve_turnedAway hst hrule rfl
    · have hlen : bc.toNat ≤ data.length := Nat.not_lt.mp hdata
      rw [not_not] at hbc
      refine ⟨_, serve_ok hst hrule, memWrite_length .., memWrite_take_getElem? (Nat.not_lt.mp hrange) ?_ fun i hi =>
        unpackRegs_take_getElem? hlen (by omega)⟩
      rw [unpackRegs_length, List.length_take_of_le hlen]; omega

/-! ### Surplus bytes -/

/-- R140: the bytes past the byte count pass the length test and are not unpacked. -/
theorem writeMany_surplus {α : Type} (bank : List α) (derived : Nat → Nat) (unpack : List Byte → List α) (a q : Word)
    {bc : Byte} {data : List Byte} (hdata : data.length = bc.toNat) (extra : List Byte) :
    writeMany bank derived unpack (.fields a q (bc :: data ++ extra))
      = writeMany bank derived unpack (.fields a q (bc :: data)) := by
  have hlong : ¬ (data ++ extra).length < bc.toNat := by rw [List.length_append]; omega
  rw [List.cons_append, writeMany_fields, writeMany_fields, if_neg hlong, if_neg hdata.not_lt, ← hdata,
    List.take_left, List.take_length]

/-- Settles O27: the reads and the single writes read no byte after the two fields, and the multiple writes none after the
counted data. -/
theorem surplusBytesAreIgnored : Obligations.SurplusBytesAreIgnored := by
  unfold Obligations.SurplusBytesAreIgnored
  intro s unit bc a v data extra rest hdata
  have hcoils : serveWMC (.fields a v (bc :: data ++ extra)) = serveWMC (.fields a v (bc :: data)) :=
    funext fun st => congrArg (Except.map _) (writeMany_surplus st.co ceil8 unpackBits a v hdata extra)
  have hregs : serveWMR (.fields a v (bc :: data ++ extra)) = serveWMR (.fields a v (bc :: data)) :=
    funext fun st => congrArg (Except.map _) (writeMany_surplus st.hr (fun q => q * 2) unpackRegs a v hdata extra)
  exact ⟨rfl, rfl, rfl, rfl, rfl, rfl, congrArg (s.serve unit 0x0F#8) hcoils, congrArg (s.serve unit 0x10#8) hregs⟩

end Sys2Proof.Machine


/-!
The order of PROCESS's tests (spec/42_processor.md R144). `processStatus` reads the request's raw bytes; its tests after the CRC
test see five numbers, which are the function code, the length, the two fields and the byte count of the row's body.
-/

namespace Sys2Proof.Machine

/-! ### The tests on the raw bytes -/

/-- R144 from test (3) on, of the numbers `processStatus` reads: function code, length, the fields at offsets 2 and 4, and the
byte at offset 6. -/
def statusAfterCrc (st : Store) (fc L a w bc : Nat) : Status :=
  if ¬ (1 ≤ fc ∧ fc ≤ 6 ∨ fc = 0x0F ∨ fc = 0x10) then .unsupportedFunction
  else if L < 8 ∨ 0x0F ≤ fc ∧ L < 9 then .invalidValue
  else if bankSize st fc < a + (if fc = 5 ∨ fc = 6 then 1 else w) then .addressOutOfRange
  else if (fc = 1 ∨ fc = 2) ∧ 256 < 5 + (w + 7) / 8 then .invalidValue
  else if (fc = 3 ∨ fc = 4) ∧ 256 < 5 + w * 2 then .invalidValue
  else if fc = 0x0F ∧ bc ≠ (w + 7) / 8 then .invalidValue
  else if fc = 0x10 ∧ bc ≠ w * 2 then .invalidValue
  else if 0x0F ≤ fc ∧ L < 9 + bc then .invalidValue
  else .ok

theorem processStatus_eq (st : Store) (req : List Byte) :
    processStatus st req =
      if req.length < 4 then .invalidValue
      else if (crc16 (req.take (req.length - 2))).toNat
          ≠ byteAt req (req.length - 2) + byteAt req (req.length - 1) * 256 then .crcError
      else statusAfterCrc st (byteAt req 1) req.length (fieldAt req 2) (fieldAt req 4) (byteAt req 6) := rfl

/-- R62: the bytes before the last two are those the CRC covers. -/
theorem take_bytes (p : AduParts) : p.bytes.take (p.bytes.length - 2) = p.covered := by
  rw [AduParts.bytes_length]
  exact List.take_left' rfl

/-- R44: the last two bytes are the CRC field, low byte first. -/
theorem crcField_bytes (p : AduParts) :
    byteAt p.bytes (p.bytes.length - 2) + byteAt p.bytes (p.bytes.length - 1) * 256 = p.crc.toNat := by
  have hbytes : p.bytes = p.covered ++ [lo8 p.crc, hi8 p.crc] := rfl
  have hlen : p.bytes.length = p.covered.length + 2 := AduParts.bytes_length p
  have hlo : byteAt p.bytes p.covered.length = (lo8 p.crc).toNat := by simp [byteAt, hbytes]
  have hhi : byteAt p.bytes (p.covered.length + 1) = (hi8 p.crc).toNat := by simp [byteAt, hbytes]
  have hcrc := be16_toNat (hi8 p.crc) (lo8 p.crc)
  rw [be16_hi8_lo8] at hcrc
  rw [hlen, Nat.add_sub_cancel, Nat.add_sub_assoc (by decide), hlo, hhi, hcrc, Nat.add_comm]

theorem processStatus_short {req : List Byte} (h : req.length < 4) (st : Store) :
    processStatus st req = .invalidValue := by
  rw [processStatus_eq, if_pos h]

/-- R144: tests (1) and (2) on the parts of an ADU. -/
theorem processStatus_bytes (st : Store) (p : AduParts) :
    processStatus st p.bytes =
      if crc16 p.covered ≠ p.crc then .crcError
      else statusAfterCrc st p.fc.toNat (p.body.length + 4) (fieldAt p.bytes 2) (fieldAt p.bytes 4)
        (byteAt p.bytes 6) := by
  have hlen : ¬ p.body.length + 4 < 4 := by omega
  rw [processStatus_eq, take_bytes, crcField_bytes, AduParts.bytes_length]
  simp only [if_neg hlen, ne_eq, BitVec.toNat_inj]
  rfl

/-! ### The tests of a row -/

/-- The status of a rule's answer: the one it raised, or OK. -/
def statusOf {α : Type} : Except Status α → Status
  | .error e => e
  | .ok _ => .ok

@[simp] theorem statusOf_map {α β : Type} (f : α → β) (r : Except Status α) : statusOf (r.map f) = statusOf r := by
  cases r <;> rfl

@[simp] theorem statusOf_error {α : Type} (e : Status) : statusOf (.error e : Except Status α) = e := rfl
@[simp] theorem statusOf_ok {α : Type} (x : α) : statusOf (.ok x) = .ok := rfl

/-- R133: test (3) fails exactly on the codes outside the supported set. -/
theorem statusAfterCrc_unsupported {fc : Byte} (h : functionCode? fc = none) (st : Store) (L a w bc : Nat) :
    statusAfterCrc st fc.toNat L a w bc = .unsupportedFunction := by
  rw [functionCode?_eq_none_iff] at h
  simp only [isSupported, Bool.or_eq_false_iff, beq_eq_false_iff_ne] at h
  exact if_pos (by bv_omega)

/-- R137: test (4) on a request too short for the two fields. -/
theorem statusAfterCrc_short (k : FunctionCode) {L : Nat} (hL : L < 8) (st : Store) (a w bc : Nat) :
    statusAfterCrc st k.byte.toNat L a w bc = .invalidValue := by
  cases k <;> simp [statusAfterCrc, FunctionCode.byte, hL]

theorem serveRow_short (k : FunctionCode) (bytes : List Byte) (st : Store) :
    serveRow k (.short bytes) st = .error .invalidValue := by
  cases k <;> rfl

theorem statusOf_readBitBank (bank : List Bool) (a q : Word) (rest : List Byte) :
    statusOf (readBitBank bank (.fields a q rest)) =
      if bank.length < a.toNat + q.toNat then .addressOutOfRange
      else if 256 < 5 + (q.toNat + 7) / 8 then .invalidValue
      else .ok := by
  simp only [readBitBank_fields, apply_ite statusOf, statusOf_error, statusOf_ok]

theorem statusOf_readRegBank (bank : List Word) (a q : Word) (rest : List Byte) :
    statusOf (readRegBank bank (.fields a q rest)) =
      if bank.length < a.toNat + q.toNat then .addressOutOfRange
      else if 256 < 5 + q.toNat * 2 then .invalidValue
      else .ok := by
  simp only [readRegBank_fields, apply_ite statusOf, statusOf_error, statusOf_ok]

theorem statusOf_writeOne {α : Type} (bank : List α) (value : Word → α) (a v : Word) (rest : List Byte) :
    statusOf (writeOne bank value (.fields a v rest)) =
      if bank.length < a.toNat + 1 then .addressOutOfRange else .ok := by
  simp only [writeOne, apply_ite statusOf, statusOf_error, statusOf_ok]

theorem statusOf_writeMany {α : Type} (bank : List α) (derived : Nat → Nat) (unpack : List Byte → List α) (a q : Word)
    (bc : Byte) (data : List Byte) :
    statusOf (writeMany bank derived unpack (.fields a q (bc :: data))) =
      if bank.length < a.toNat + q.toNat then .addressOutOfRange
      else if bc.toNat ≠ derived q.toNat then .invalidValue
      else if data.length < bc.toNat then .invalidValue
      else .ok := by
  simp only [writeMany_fields, apply_ite statusOf, statusOf_error, statusOf_ok]

/-- R144, tests (4) to (7) on a request that has its two fields: those that concern the function code are its rule's tests,
in the rule's order. -/
theorem statusAfterCrc_fields (k : FunctionCode) (st : Store) (a q : Word) {rest : List Byte} {bc : Nat}
    (hbc : ∀ b data, rest = b :: data → bc = b.toNat) :
    statusAfterCrc st k.byte.toNat (rest.length + 8) a.toNat q.toNat bc
      = statusOf (serveRow k (.fields a q rest) st) := by
  cases k with
  | rc | rdi => simp [statusAfterCrc, FunctionCode.byte, bankSize, serveRow, serveRC, serveRDI, statusOf_readBitBank]
  | rhr | rir => simp [statusAfterCrc, FunctionCode.byte, bankSize, serveRow, serveRHR, serveRIR, statusOf_readRegBank]
  | wsc | wsr => simp [statusAfterCrc, FunctionCode.byte, bankSize, serveRow, serveWSC, serveWSR, statusOf_writeOne]
  | wmc | wmr =>
    cases rest with
    | nil => rfl
    | cons b data =>
      rw [hbc b data rfl]
      have hcount : ¬ data.length + 1 + 8 < 9 := by omega
      have hlong : data.length + 1 + 8 < 9 + b.toNat ↔ data.length < b.toNat := by omega
      simp only [serveRow, serveWMC, serveWMR, statusOf_map, statusOf_writeMany, ceil8, ← hlong]
      simp [statusAfterCrc, FunctionCode.byte, bankSize, hcount]

/-- R124: on the parts of a supported request the tests from (4) on are the rule's own. -/
theorem statusAfterCrc_served (p : AduParts) {k : FunctionCode} (hk : functionCode? p.fc = some k) (st : Store) :
    statusAfterCrc st p.fc.toNat (p.body.length + 4) (fieldAt p.bytes 2) (fieldAt p.bytes 4) (byteAt p.bytes 6)
      = statusOf (serveRow k (parseBody p.body) st) := by
  obtain ⟨unit, fc, body, crc⟩ := p
  obtain rfl := functionCode?_eq_some_iff.mp hk
  match body with
  | [] | [_] | [_, _] | [_, _, _] =>
    exact (statusAfterCrc_short k (by simp) ..).trans (congrArg statusOf (serveRow_short k _ st)).symm
  | b2 :: b3 :: b4 :: b5 :: rest =>
    have hfields := statusAfterCrc_fields k st (be16 b2 b3) (be16 b4 b5) (rest := rest)
      (bc := byteAt (AduParts.bytes ⟨unit, k.byte, b2 :: b3 :: b4 :: b5 :: rest, crc⟩) 6) (by rintro b data rfl; rfl)
    rw [be16_toNat, be16_toNat] at hfields
    exact hfields

/-- Settles O20: where a store exists PROCESS answers; each of the five ways it can answer (`process_cases`) is the outcome of
the tests up to the one that decides it. -/
theorem processReportsTheFirstFailedTest : Obligations.ProcessReportsTheFirstFailedTest := by
  unfold Obligations.ProcessReportsTheFirstFailedTest
  intro req s st hst
  obtain ⟨t, ht, -⟩ := exec_resolveRequest_goesOn (Option.isSome_of_mem hst) req
  rw [exec_resolveRequest_eq_process] at ht
  obtain ⟨st', hst', hcases⟩ := process_cases ht
  cases hst.symm.trans hst'
  obtain ⟨hlen, rfl⟩ | ⟨p, rfl, ⟨hcrc, rfl⟩ | ⟨hcrc, ⟨hk, rfl⟩ | ⟨k, hk, ⟨e, hrow, rfl⟩ | ⟨_, body, hrow, rfl⟩⟩⟩⟩ := hcases
  · exact ⟨_, [], ht, by rw [processStatus_short hlen]; rfl⟩
  · exact ⟨_, [], ht, by rw [processStatus_bytes, if_pos hcrc]; rfl⟩
  · exact ⟨_, _, ht, by rw [processStatus_bytes, if_neg (not_not.mpr hcrc), statusAfterCrc_unsupported hk]; rfl⟩
  · exact ⟨_, _, ht, by rw [processStatus_bytes, if_neg (not_not.mpr hcrc), statusAfterCrc_served p hk, hrow]; rfl⟩
  · exact ⟨_, _, ht, by rw [processStatus_bytes, if_neg (not_not.mpr hcrc), statusAfterCrc_served p hk, hrow]; rfl⟩

end Sys2Proof.Machine

/-!
The response decoder (spec/43_decoder.md). `decodedParts` says once what a row and DECODE of its ADU read from the parts of a
response (`exec_rspRow_decoded`, `exec_decode_bytes`). The values of a read response are then said on the raw bytes, from the
one equation for the data area (R173). Last, the round trip of coils through all three units.
-/

namespace Sys2Proof.Machine

/-! ### What DECODE reads from a response -/

/-- The values by function code: one per bit (R164, R165), one per register (R166, R167), none for the other codes. -/
def responseValues (body : List Byte) : Option FunctionCode → List Word
  | some .rc | some .rdi => bitValues body
  | some .rhr | some .rir => regValues body
  | _ => []

/-- The informational fields by function code: the four write acknowledgements have them (R168 to R171). -/
def responseInfo (body : List Byte) : Option FunctionCode → Option AckInfo
  | some .wsc | some .wsr | some .wmc | some .wmr => ackInfo (parseBody body)
  | _ => none

/-- The outputs of DECODE for a response of at least four bytes (R162 to R172). -/
def decodedParts (p : AduParts) : Decoded where
  values := responseValues p.body (functionCode? p.fc)
  header := some { unit := p.unit, fc := p.fc, crcRx := p.crc }
  excCode := if p.fc.getLsbD 7 = true then some (p.body.headD (lo8 p.crc)) else none
  info := responseInfo p.body (functionCode? p.fc)

/-- R163: a function code with bit 7 set is none of the eight. -/
theorem functionCode?_of_bit7 {fc : Byte} (h7 : fc.getLsbD 7 = true) : functionCode? fc = none := by
  cases hk : functionCode? fc with
  | none => rfl
  | some k =>
    obtain rfl := functionCode?_eq_some_iff.mp hk
    rw [k.byte_bit7] at h7
    cases h7

theorem decodedParts_code (k : FunctionCode) (unit : Byte) (body : List Byte) (crc : Word) :
    decodedParts ⟨unit, k.byte, body, crc⟩
      = ⟨responseValues body (some k), some ⟨unit, k.byte, crc⟩, none, responseInfo body (some k)⟩ := by
  rw [decodedParts, functionCode?_byte, if_neg (ne_true_of_eq_false k.byte_bit7)]

/-- R160: each of the ten rows answers the outputs of its parts and changes nothing else. -/
theorem exec_rspRow_decoded (p : AduParts) (s : State) :
    exec (rspRow p) s = .next { s with out := .decoded (decodedParts p) } := by
  by_cases h7 : p.fc.getLsbD 7 = true
  · rw [rspRow, decodedParts, if_pos h7, if_pos h7, functionCode?_of_bit7 h7]; rfl
  · cases hk : functionCode? p.fc with
    | none => rw [rspRow, decodedParts, if_neg h7, if_neg h7, hk]; rfl
    | some k =>
      obtain ⟨unit, fc, body, crc⟩ := p
      obtain rfl := functionCode?_eq_some_iff.mp hk
      rw [exec_rspRow _ k s rfl, decodedParts_code]
      cases k <;> rfl

theorem exec_decode_bytes (p : AduParts) (s : State) :
    exec (.decode p.bytes) s = .next { s with out := .decoded (decodedParts p) } := by
  rw [← exec_resolveResponse_eq_decode, resolveResponse, splitAdu_bytes]
  exact exec_rspRow_decoded p s

/-- R164 to R171: a response of one of the eight codes is decoded by that code's rule. -/
theorem exec_decode_code (k : FunctionCode) (unit : Byte) (body : List Byte) (crc : Word) (s : State) :
    exec (.decode (AduParts.bytes ⟨unit, k.byte, body, crc⟩)) s
      = .next { s with
          out := .decoded ⟨responseValues body (some k), some ⟨unit, k.byte, crc⟩, none, responseInfo body (some k)⟩ } := by
  rw [exec_decode_bytes, decodedParts_code]

/-- What a row answers, DECODE answers on the ADU of the same parts. -/
theorem row_and_decode {p : AduParts} {i : Instr} {d : Decoded} (hsel : rspRow p = i) (hd : decodedParts p = d)
    (s : State) :
    exec i s = .next { s with out := .decoded d } ∧ exec (.decode p.bytes) s = .next { s with out := .decoded d } := by
  subst hsel hd
  exact ⟨exec_rspRow_decoded p s, exec_decode_bytes p s⟩

/-- R161: fewer than four bytes have no parts. -/
theorem exec_decode_short {buf : List Byte} (h : buf.length < 4) (s : State) :
    exec (.decode buf) s = .next { s with out := .decoded Decoded.empty } := by
  simp only [exec_decode, execDecode, splitAdu_eq_none_iff.mpr h]
  rfl

/-! ### The responses without values -/

/-- Settles O34: a short buffer has no parts. -/
theorem decodeShortBuffer : Obligations.DecodeShortBuffer := by
  unfold Obligations.DecodeShortBuffer
  intro s buf h
  exact exec_decode_short h s

/-- Settles O33: the code is none of the eight and its bit 7 is clear. -/
theorem decodeUnknownFunction : Obligations.DecodeUnknownFunction := by
  unfold Obligations.DecodeUnknownFunction
  intro s unit fc body crc h7 hfc
  have hk := functionCode?_of_notMem_supported hfc
  have hclear : ¬ fc.getLsbD 7 = true := ne_true_of_eq_false h7
  refine row_and_decode (p := ⟨unit, fc, body, crc⟩) ?_ ?_ s
  · rw [rspRow, if_neg hclear, hk]
  · rw [decodedParts, if_neg hclear, hk]; rfl

/-- R163: the byte at offset 2, which with `L = 4` is the low CRC byte. -/
theorem bytes_offset2 (p : AduParts) : p.bytes[2]? = some (p.body.headD (lo8 p.crc)) := by
  obtain ⟨unit, fc, body, crc⟩ := p
  cases body <;> rfl

/-- Settles O32: bit 7 decides before the eight codes are looked at. -/
theorem decodeExceptionResponse : Obligations.DecodeExceptionResponse := by
  unfold Obligations.DecodeExceptionResponse
  intro s unit fc body crc h7
  refine row_and_decode (p := ⟨unit, fc, body, crc⟩) (if_pos h7) ?_ s
  rw [decodedParts, functionCode?_of_bit7 h7, if_pos h7, ← bytes_offset2]
  rfl

/-- R168, D16: a body has its two fields exactly where the ADU has eight bytes. -/
theorem ackInfo_parseBody (p : AduParts) :
    ackInfo (parseBody p.body) =
      if 8 ≤ p.bytes.length then
        some { addr := be16 (p.bytes.getD 2 0x00#8) (p.bytes.getD 3 0x00#8)
               val := be16 (p.bytes.getD 4 0x00#8) (p.bytes.getD 5 0x00#8) }
      else none := by
  obtain ⟨unit, fc, body, crc⟩ := p
  rw [AduParts.bytes_length]
  match body with
  | [] | [_] | [_, _] | [_, _, _] => rfl
  | b2 :: b3 :: b4 :: b5 :: rest => rw [if_pos (by simp)]; rfl

/-- Settles O31: the four rows read the two fields of the body. -/
theorem decodeWriteAcknowledgements : Obligations.DecodeWriteAcknowledgements := by
  unfold Obligations.DecodeWriteAcknowledgements
  intro s unit fc body crc i hi buf info d t
  have hinfo : info = ackInfo (parseBody body) := (ackInfo_parseBody ⟨unit, fc, body, crc⟩).symm
  have ht : t = { s with out := .decoded ⟨[], some ⟨unit, fc, crc⟩, none, ackInfo (parseBody body)⟩ } := by
    rw [← hinfo]
  rw [ht]
  simp only [List.mem_cons, List.not_mem_nil, or_false, Prod.mk.injEq] at hi
  obtain ⟨rfl, rfl⟩ | ⟨rfl, rfl⟩ | ⟨rfl, rfl⟩ | ⟨rfl, rfl⟩ := hi
  · exact ⟨rfl, exec_decode_code .wsc unit body crc s⟩
  · exact ⟨rfl, exec_decode_code .wsr unit body crc s⟩
  · exact ⟨rfl, exec_decode_code .wmc unit body crc s⟩
  · exact ⟨rfl, exec_decode_code .wmr unit body crc s⟩

/-! ### The values of a read response -/

/-- R173: the data area on the raw bytes: `bc` of them from offset 3, none where they do not lie clear of the CRC. -/
theorem dataArea_body (p : AduParts) :
    dataArea p.body =
      if p.bytes.length < 5 + byteAt p.bytes 2 then [] else (p.bytes.drop 3).take (byteAt p.bytes 2) := by
  obtain ⟨unit, fc, body, crc⟩ := p
  rw [AduParts.bytes_length]
  cases body with
  | nil => rw [if_pos (by simp; omega)]; rfl
  | cons bc data =>
    have hdrop : (AduParts.bytes ⟨unit, fc, bc :: data, crc⟩).drop 3 = data ++ crcBytes crc := rfl
    have hbc : byteAt (AduParts.bytes ⟨unit, fc, bc :: data, crc⟩) 2 = bc.toNat := rfl
    rw [hdrop, hbc, dataArea]
    by_cases hfits : bc.toNat ≤ data.length
    · rw [if_pos hfits, if_neg (by simp; omega), List.take_append_of_le_length hfits]
    · rw [if_neg hfits, if_pos (by simp; omega)]

/-- R164: eight values for each data byte, low bit first, each 0 or 1; none for a truncated response. -/
theorem bitValues_body (p : AduParts) :
    if p.bytes.length < 5 + byteAt p.bytes 2 then bitValues p.body = []
    else (bitValues p.body).length = byteAt p.bytes 2 * 8 ∧
      ∀ j k, j < byteAt p.bytes 2 → k < 8 →
        (bitValues p.body)[8 * j + k]? =
          some (if (p.bytes.getD (3 + j) 0x00#8).getLsbD k = true then 0x0001#16 else 0x0000#16) := by
  have hdata := dataArea_body p
  split_ifs at hdata ⊢ with hshort
  · rw [bitValues, hdata]; rfl
  · have hfits : byteAt p.bytes 2 ≤ (p.bytes.drop 3).length := by rw [List.length_drop]; omega
    refine ⟨?_, fun j k hj hk => ?_⟩
    · rw [bitValues_length, hdata, List.length_take_of_le hfits, Nat.mul_comm]
    · have hbyte : (8 * j + k) / 8 = j := by omega
      have hbit : (8 * j + k) % 8 = k := by omega
      rw [bitValues, hdata, List.getElem?_map, unpackBits_take_getElem? hfits (by omega), hbyte, hbit,
        List.getD_eq_getElem?_getD, List.getElem?_drop, ← List.getD_eq_getElem?_getD]
      rfl

/-- R166, D15: one value for each pair of data bytes, big-endian; none for a truncated response. -/
theorem regValues_body (p : AduParts) :
    if p.bytes.length < 5 + byteAt p.bytes 2 then regValues p.body = []
    else (regValues p.body).length = byteAt p.bytes 2 / 2 ∧
      ∀ k, k < byteAt p.bytes 2 / 2 →
        (regValues p.body)[k]? =
          some (be16 (p.bytes.getD (3 + 2 * k) 0x00#8) (p.bytes.getD (4 + 2 * k) 0x00#8)) := by
  have hdata := dataArea_body p
  split_ifs at hdata ⊢ with hshort
  · rw [regValues, hdata]; rfl
  · have hfits : byteAt p.bytes 2 ≤ (p.bytes.drop 3).length := by rw [List.length_drop]; omega
    refine ⟨?_, fun k hk => ?_⟩
    · rw [regValues_length, hdata, List.length_take_of_le hfits]
    · have hlow : 3 + (2 * k + 1) = 4 + 2 * k := by omega
      rw [regValues, hdata, unpackRegs_take_getElem? hfits (by omega)]
      simp only [List.getD_eq_getElem?_getD, List.getElem?_drop, hlow]

/-- Settles O29: both rows read the bits of the data area. -/
theorem decodeBitResponses : Obligations.DecodeBitResponses := by
  unfold Obligations.DecodeBitResponses
  intro s unit fc body crc i hi
  have hvalues := bitValues_body ⟨unit, fc, body, crc⟩
  simp only [List.mem_cons, List.not_mem_nil, or_false, Prod.mk.injEq] at hi
  obtain ⟨rfl, rfl⟩ | ⟨rfl, rfl⟩ := hi
  · exact ⟨bitValues body, rfl, exec_decode_code .rc unit body crc s, hvalues⟩
  · exact ⟨bitValues body, rfl, exec_decode_code .rdi unit body crc s, hvalues⟩

/-- Settles O30: both rows read the registers of the data area. -/
theorem decodeRegisterResponses : Obligations.DecodeRegisterResponses := by
  unfold Obligations.DecodeRegisterResponses
  intro s unit fc body crc i hi
  have hvalues := regValues_body ⟨unit, fc, body, crc⟩
  simp only [List.mem_cons, List.not_mem_nil, or_false, Prod.mk.injEq] at hi
  obtain ⟨rfl, rfl⟩ | ⟨rfl, rfl⟩ := hi
  · exact ⟨regValues body, rfl, exec_decode_code .rhr unit body crc s, hvalues⟩
  · exact ⟨regValues body, rfl, exec_decode_code .rir unit body crc s, hvalues⟩

/-! ### Every response -/

/-- Settles O35: the outputs name the CRC field in `crc_rx`, and in the exception code only where there is no body byte. -/
theorem decodeNeverChecksTheCrc : Obligations.DecodeNeverChecksTheCrc := by
  unfold Obligations.DecodeNeverChecksTheCrc
  intro s unit fc b body x y
  have hdecode := fun c => exec_decode_bytes ⟨unit, fc, b :: body, c⟩ s
  exact ⟨responseValues (b :: body) (functionCode? fc), if fc.getLsbD 7 = true then some b else none,
    responseInfo (b :: body) (functionCode? fc), fun c _ => hdecode c⟩

/-- Settles O36: DECODE answers with or without parts; the bound is the capacity of the outputs. -/
theorem decodeGivesAtMost2008Values : Obligations.DecodeGivesAtMost2008Values := by
  unfold Obligations.DecodeGivesAtMost2008Values
  intro s buf
  have hanswers : ∃ d : Decoded, exec (.decode buf) s = .next { s with out := .decoded d } := by
    cases hp : splitAdu buf with
    | none => exact ⟨_, exec_decode_short (splitAdu_eq_none_iff.mp hp) s⟩
    | some p =>
      obtain rfl := splitAdu_eq_some_iff.mp hp
      exact ⟨_, exec_decode_bytes p s⟩
  obtain ⟨d, hd⟩ := hanswers
  refine ⟨d, hd, fun hlen => decoded_fits.mp ?_⟩
  exact exec_resolveResponse_fits hlen ((exec_resolveResponse_eq_decode buf s).trans hd)

/-! ### The round trip of coils, one lemma for each command -/

/-- R131: the coils of a request go to the bank in order, the padding bits dropped. -/
theorem serveWMC_inRange {st : Store} {a q : Word} {data : List Byte} (hdata : data.length = ceil8 q.toNat)
    (hrange : a.toNat + q.toNat ≤ st.co.length) (hcap : data.length < 256) :
    serveWMC (.fields a q (BitVec.ofNat 8 data.length :: data)) st
      = .ok ({ st with co := memWrite st.co a.toNat ((unpackBits data).take q.toNat) }, echoBytes a q) := by
  have hbc : (BitVec.ofNat 8 data.length).toNat = data.length := Nat.mod_eq_of_lt hcap
  rw [serveWMC, writeMany_inRange hrange (hbc.trans hdata) hbc.symm]
  rfl

/-- R125: a range inside the bank whose response fits is read. -/
theorem serveRC_inRange {st : Store} {a q : Word} (hrange : a.toNat + q.toNat ≤ st.co.length)
    (hcap : 5 + ceil8 q.toNat ≤ 256) (rest : List Byte) :
    serveRC (.fields a q rest) st
      = .ok (st, BitVec.ofNat 8 (ceil8 q.toNat) :: packBits (memRead st.co a.toNat q.toNat)) := by
  rw [ceil8] at hcap
  rw [serveRC, readBitBank_fields, if_neg (Nat.not_lt.mpr hrange), if_neg (Nat.not_lt.mpr hcap)]
  rfl

/-- R176: packed bits are decoded to the bits, widened, and the padding. -/
theorem bitValues_packBits {bits : List Bool} (h : ceil8 bits.length < 256) :
    bitValues (BitVec.ofNat 8 (ceil8 bits.length) :: packBits bits) = (unpackBits (packBits bits)).map widenBit := by
  have hdata := dataArea_byteCount (data := packBits bits) (by rwa [packBits_length])
  rw [packBits_length] at hdata
  rw [bitValues, hdata]

section CoilRoundTrip

variable {s : State} {st : Store} {unit : Byte} {a n : Word} {data : List Byte} {bits : List Bool}

theorem exec_encode_writeCoils {p : Payload} (hdata : data.length = ceil8 n.toNat) (hmax : n.toNat ≤ 1976)
    (hpresent : p.present = true) (hlen : p.len.toNat = data.length) (hbytes : p.bytes = data) :
    exec (.encode { unit := unit, fc := 0x0F#8, address := a, quantity := n, payload := p }) s
      = .next (s.encoded unit 0x0F#8 a (wordBytes n ++ BitVec.ofNat 8 data.length :: data)) := by
  have hcap : data.length ≤ 247 := by rw [hdata, ceil8]; omega
  subst hbytes
  rw [← encodeMultiple_payload s unit 0x0F#8 a n hpresent hlen rfl hcap, hdata]
  rfl

theorem exec_process_writeCoils (hst : s.store = some st) (hdata : data.length = ceil8 n.toNat)
    (hmax : n.toNat ≤ 1976) (hrange : a.toNat + n.toNat ≤ st.co.length) :
    exec (.process (requestAdu unit 0x0F#8 a (wordBytes n ++ BitVec.ofNat 8 data.length :: data))) s
      = .next { s with
          store := some { st with co := memWrite st.co a.toNat ((unpackBits data).take n.toNat) }
          out := .reply .ok (sealAdu (unit :: 0x0F#8 :: echoBytes a n)) } := by
  have hcap : data.length < 256 := by rw [hdata, ceil8]; omega
  exact (exec_process_requestAdu .wmc unit a n _ s).trans (serve_ok hst (serveWMC_inRange hdata hrange hcap))

theorem exec_process_readCoils (hst : s.store = some st) (hn : bits.length = n.toNat) (hmax : n.toNat ≤ 1976)
    (hrange : a.toNat + n.toNat ≤ st.co.length) (hread : memRead st.co a.toNat n.toNat = bits) :
    exec (.process (requestAdu unit 0x01#8 a (wordBytes n))) s
      = .next { s with
          store := some st
          out := .reply .ok (sealAdu (unit :: 0x01#8 :: BitVec.ofNat 8 (ceil8 bits.length) :: packBits bits)) } := by
  have hrule := serveRC_inRange hrange (by rw [ceil8]; omega) []
  rw [hread, ← hn] at hrule
  exact (exec_process_requestAdu .rc unit a n [] s).trans (serve_ok hst hrule)

theorem exec_decode_coils (h : ceil8 bits.length < 256) :
    exec (.decode (sealAdu (unit :: 0x01#8 :: BitVec.ofNat 8 (ceil8 bits.length) :: packBits bits))) s
      = .next (s.decodedValues unit 0x01#8
          (crc16 (unit :: 0x01#8 :: BitVec.ofNat 8 (ceil8 bits.length) :: packBits bits))
          ((unpackBits (packBits bits)).map widenBit)) := by
  rw [exec_decode_sealAdu, exec_rspRow _ .rc s rfl]
  simp only [bitValues_packBits h]

end CoilRoundTrip

/-- R45: the first `n` bits of a data area, and false from there on. -/
theorem unpackBits_take_getD {data : List Byte} {n : Nat} (hn : n ≤ 8 * data.length) (k : Nat) :
    ((unpackBits data).take n).getD k false
      = decide (k < n ∧ (data.getD (k / 8) 0x00#8).getLsbD (k % 8) = true) := by
  by_cases hk : k < n
  · have hbit := unpackBits_take_getElem? (le_refl data.length) (i := k) (by omega)
    rw [List.take_length] at hbit
    rw [List.getD_eq_getElem?_getD, List.getElem?_take_of_lt hk, hbit]
    simp [hk]
  · rw [List.getD_eq_default _ _ (by rw [List.length_take]; omega)]
    simp [hk]

/-- Settles O54: the write puts the first `n` bits of the data into the bank, the read finds them there (R50), and the
decoder unpacks what the read packed, the padding included. -/
theorem coilsRoundTripThroughTheBlock : Obligations.CoilsRoundTripThroughTheBlock := by
  unfold Obligations.CoilsRoundTripThroughTheBlock
  intro s st unit a n data hst hrange hdata hmax payload
  have hlen : payload.len.toNat = data.length := Nat.mod_eq_of_lt (by omega)
  have hn : ((unpackBits data).take n.toNat).length = n.toNat :=
    List.length_take_of_le (by rw [unpackBits_length]; omega)
  have hread := memRead_memWrite st.co a.toNat ((unpackBits data).take n.toNat) (by rwa [hn])
  rw [hn] at hread
  have hcount : ceil8 ((unpackBits data).take n.toNat).length = (n.toNat + 7) / 8 := by rw [hn, ceil8]
  refine ⟨_, _, _, _, _, _, _, _, _, _, exec_encode_writeCoils hdata hmax rfl hlen rfl, rfl,
    exec_process_writeCoils hst hdata hmax hrange, rfl, rfl, rfl,
    exec_process_readCoils rfl hn hmax (by rwa [memWrite_length]) hread, rfl,
    exec_decode_coils (by omega), rfl, ?count, fun k hk => ?value⟩
  case count => simp only [List.length_map, unpackBits_length, packBits_length, hcount]
  case value =>
    have hk' : k < 8 * ceil8 ((unpackBits data).take n.toNat).length := by simpa using hk
    simp only [List.getElem?_map, unpackBits_packBits_getElem?, if_pos hk', Option.map_some,
      unpackBits_take_getD (by omega : n.toNat ≤ 8 * data.length), widenBit, decide_eq_true_eq]

end Sys2Proof.Machine

/-!
The frame of a rejected request (spec/60_exceptions.md R136, R189): a failed command has no effect on the Register Store.
-/

namespace Sys2Proof.Machine

/-- Settles O21: of the ways PROCESS can answer, only a rule that succeeds touches the state beyond its outputs, and it answers
OK (`process_rejected`). -/
theorem rejectedRequestChangesNothing : Obligations.RejectedRequestChangesNothing := by
  unfold Obligations.RejectedRequestChangesNothing
  intro req s t e adu h hout he
  obtain ⟨hframe, -⟩ := process_rejected h hout he
  rw [hframe, State.emit]

end Sys2Proof.Machine

/-!
The store's lifecycle (spec/70_reset_and_hazards.md R210, R213): RESET creates it, and PROCESS has no meaning without it.
-/

namespace Sys2Proof.Machine

theorem exec_reset (init : Store) (s : State) :
    exec (.reset init) s = .next { s with store := some init, out := .none } := rfl

/-- Settles O37: RESET reads neither the old store nor anything else of the state, and writes the store and the outputs only
(`exec_reset`). -/
theorem resetCreatesTheStore : Obligations.ResetCreatesTheStore := by
  unfold Obligations.ResetCreatesTheStore
  exact exec_reset

/-- Without a store PROCESS is refused before any byte of the request is read (R213). -/
theorem exec_process_no_store {s : State} (h : s.store = none) (req : List Byte) :
    exec (.process req) s = .refused .noStore := by
  simp only [exec_process, execProcess, h]

/-- Every REQ row serves its request from the store, whatever its body, also one that no ADU carries. -/
theorem exec_req_serves {unit fc : Byte} {body : Body} {bytes : List Byte} {i : Instr}
    (h : i ∈ [Instr.reqRC unit body, .reqRDI unit body, .reqRHR unit body, .reqRIR unit body, .reqWSC unit body,
      .reqWSR unit body, .reqWMC unit body, .reqWMR unit body, .reqOther unit fc bytes]) (s : State) :
    ∃ u c f, exec i s = s.serve u c f := by
  simp only [List.mem_cons, List.not_mem_nil, or_false] at h
  obtain rfl | rfl | rfl | rfl | rfl | rfl | rfl | rfl | rfl := h
  iterate 8 exact ⟨_, _, _, rfl⟩
  exact ⟨unit, fc, fun _ => .error .unsupportedFunction, rfl⟩

/-- Settles O39: PROCESS looks for the store first, and its rows have one way to reach it, `State.serve`
(`exec_req_serves`), which refuses without one. -/
theorem processWithoutStoreIsRefused : Obligations.ProcessWithoutStoreIsRefused := by
  unfold Obligations.ProcessWithoutStoreIsRefused
  intro s req unit fc body bytes i hs hi
  obtain rfl | hrow := List.mem_cons.mp hi
  · exact exec_process_no_store hs req
  · obtain ⟨u, c, f, hserve⟩ := exec_req_serves hrow s
    exact hserve.trans (serve_no_store hs u c f)

end Sys2Proof.Machine
